-- ==== Sys2Proof/Word.lean ====
section
/-! DEFINITION. The widths of the block's words: bytes of the source memory and rasters, 16-bit frame dimensions, handles and
depth samples, 32-bit registers and source addresses, 24-bit BUS addresses (00_scope R8, 20_memory R39). -/

namespace Sys2Proof

abbrev Byte := BitVec 8

abbrev Half := BitVec 16

abbrev Word := BitVec 32

/-- An address of the BUS space (20_memory R39). -/
abbrev BusAddr := BitVec 24

end Sys2Proof
end

