-- ==== Sys2Proof/Syntax.lean ====
section
/-! DEFINITION. The block's commands as terms: one constructor of Instr for each row of spec/opcode_table.json. The unit a
command goes to is no part of its word (30_encoding R60): it is the window the word is written through. -/

namespace Sys2Proof

/-- The FMT field of DECODE_COLOR (30_encoding R58): 0 is PACKED_BGR32, 1 is UYVY, 2 to 255 are unrecognized. -/
inductive PixelFormat where
  | packedBgr32
  | uyvy
  | unrecognized (tag : Byte)
deriving DecidableEq, Repr

/-- The four commands (30_encoding R57). -/
inductive Instr where
  | decodeColor (fmt : PixelFormat)
  | decodeDepth
  | subscribe (sink : Byte)
  | unsubscribe (handle : Half)
deriving DecidableEq, Repr

end Sys2Proof
end

