-- ==== Sys2Proof/WellFormed.lean ====
section
/-! DEFINITION. Which terms of Instr stand for a command word. The field widths are in the types; what is left to check is that
an unrecognized format tag is not one of the two recognized values (30_encoding R58). -/

namespace Sys2Proof

/-- An unrecognized tag is 2 to 255 (30_encoding R58). -/
def PixelFormat.wellFormed : PixelFormat → Bool
  | .packedBgr32 => true
  | .uyvy => true
  | .unrecognized tag => decide (2 ≤ tag.toNat)

def Instr.wellFormed : Instr → Bool
  | .decodeColor fmt => fmt.wellFormed
  | .decodeDepth => true
  | .subscribe _ => true
  | .unsubscribe _ => true

end Sys2Proof
end

