-- ==== Sys2Proof/Decode.lean ====
section
/-! DEFINITION. The command decoder and the encoder (30_encoding R57 to R65). A command is one 32-bit word written whole to a
CMD register (R57, R60); registers have no byte view (20_memory R49), so the decoder reads the word itself. -/

namespace Sys2Proof

/-- Why a word is illegal whichever unit it goes to (30_encoding R62, first two points). The third point, a DECODE sent to the
wrong unit, depends on the unit and is in the meanings. -/
inductive Reject where
  /-- OP is reserved (30_encoding R61). -/
  | reservedOpcode (op : Byte)
  /-- OP is one of the four, and a reserved field is not zero. -/
  | reservedFieldNonzero (op : Byte)
deriving DecidableEq, Repr

/-- What the decoder answers: total, and a word with no meaning is rejected by name. -/
inductive Decoded where
  | instr (i : Instr)
  | reject (why : Reject)
deriving DecidableEq, Repr

/-! The columns of the table of 30_encoding R57. -/

/-- OP, bits [31:24]. -/
def opField (c : Word) : Byte := c.extractLsb' 24 8

/-- Bits [23:16]. -/
def upperField (c : Word) : Byte := c.extractLsb' 16 8

/-- Bits [15:8]. -/
def middleField (c : Word) : Byte := c.extractLsb' 8 8

/-- Bits [7:0]: FMT or SINK. -/
def lowField (c : Word) : Byte := c.extractLsb' 0 8

/-- HANDLE, bits [15:0]. -/
def handleField (c : Word) : Half := c.extractLsb' 0 16

/-- FMT values (30_encoding R58). -/
def formatOfTag (tag : Byte) : PixelFormat :=
  if tag = 0 then .packedBgr32 else if tag = 1 then .uyvy else .unrecognized tag

/-- The FMT value of a format (30_encoding R58, R65). -/
def tagOfFormat : PixelFormat → Byte
  | .packedBgr32 => 0
  | .uyvy => 1
  | .unrecognized tag => tag

/-- The four opcodes of 30_encoding R61 that are not reserved. -/
def opcodeKnown (op : Byte) : Bool :=
  op == 0x01 || op == 0x02 || op == 0x10 || op == 0x11

/-- The decoder (30_encoding R57, R61, R62): an opcode, its reserved fields zero, and its operand fields. -/
def decode (c : Word) : Decoded :=
  if opField c = 0x01 ∧ upperField c = 0 ∧ middleField c = 0 then
    .instr (.decodeColor (formatOfTag (lowField c)))
  else if opField c = 0x02 ∧ upperField c = 0 ∧ middleField c = 0 ∧ lowField c = 0 then
    .instr .decodeDepth
  else if opField c = 0x10 ∧ upperField c = 0 ∧ middleField c = 0 then
    .instr (.subscribe (lowField c))
  else if opField c = 0x11 ∧ upperField c = 0 then
    .instr (.unsubscribe (handleField c))
  else if opcodeKnown (opField c) then
    .reject (.reservedFieldNonzero (opField c))
  else
    .reject (.reservedOpcode (opField c))

/-- A word from the four columns of the table of 30_encoding R57. -/
def packFields (op upper middle low : Byte) : Word := op ++ (upper ++ (middle ++ low))

/-- The encoder (30_encoding R57, R65). -/
def encode : Instr → Word
  | .decodeColor fmt => packFields 0x01 0 0 (tagOfFormat fmt)
  | .decodeDepth => packFields 0x02 0 0 0
  | .subscribe sink => packFields 0x10 0 0 sink
  | .unsubscribe handle => packFields 0x11 0 (handle.extractLsb' 8 8) (handle.extractLsb' 0 8)

/-- The command word whose bits, numbered as spec/opcode_table.json numbers them, are the low `nbits` bits of `w`; every bit
above is 0. A command is one word (30_encoding R64), so bit n of the table is bit n of the word. -/
def commandWord (nbits w : Nat) : Word := BitVec.ofNat 32 (w % 2 ^ nbits)

/-- The instruction the decoder reads from a table row's word. -/
def decodeTableWord (nbits w : Nat) : Option Instr :=
  match decode (commandWord nbits w) with
  | .instr i => some i
  | .reject _ => none

end Sys2Proof
end

