-- ==== Sys2Proof/Config.lean ====
section
/-! DEFINITION. The parameters of a run (00_scope R7), with their defaults and legal values, and the free values: constants
without a body, which stand for the draws the spec leaves open. -/

namespace Sys2Proof.Config

/-- CSC_NUMERICS: how the CSC evaluates its real coefficients (00_scope R7, 40_color_decode R75). -/
inductive CscNumerics where
  | exact
  | boundaryEither
deriving DecidableEq, Repr

/-- RACE_READ: what a raster read during the WRITE phase returns (00_scope R7, 20_memory R48). -/
inductive RaceRead where
  | oldOrNew
  | any
deriving DecidableEq, Repr

/-- The parameters a model takes "as arguments" (00_scope R7). -/
structure Params where
  maxW        : Nat
  maxH        : Nat
  subMax      : Nat
  sinkCount   : Nat
  cscNumerics : CscNumerics
  raceRead    : RaceRead
deriving DecidableEq, Repr

/-- The defaults of 00_scope R7. -/
def Params.defaults : Params :=
  { maxW := 640, maxH := 480, subMax := 8, sinkCount := 4, cscNumerics := .exact, raceRead := .oldOrNew }

/-- The legal values of 00_scope R7. -/
abbrev Params.Legal (p : Params) : Prop :=
  2 ≤ p.maxW ∧ p.maxW ≤ 65535 ∧ 1 ≤ p.maxH ∧ p.maxH ≤ 65535 ∧ 4 * p.maxW * p.maxH ≤ 2 ^ 21 ∧
    1 ≤ p.subMax ∧ p.subMax ≤ 255 ∧ 1 ≤ p.sinkCount ∧ p.sinkCount ≤ 256

/-- FREE VALUE (log 12). In color frame number `frame`, at pixel `pixel` and channel `channel` (0 B, 1 G, 2 R): whether a
boundary point gives n/1000 - 1 instead of n/1000 under BOUNDARY_EITHER (40_color_decode R75). -/
opaque cscDraw (frame pixel channel : Nat) : Bool

/-- FREE VALUE (log 13). In draw number `draw`, at raster offset `off`: whether a racing read under OLD_OR_NEW shows the new
byte (20_memory R48). -/
opaque raceShowsNew (draw off : Nat) : Bool

/-- FREE VALUE (log 10, log 13). In draw number `draw`, at raster offset `off`: the byte of a racing read under ANY, and the
byte read where no write step has stored one since reset (20_memory R48, 10_state R38). -/
opaque raceAnyByte (draw off : Nat) : Byte

/-- FREE VALUE (log 3). In draw number `draw`: whether the CU moves first where both units could and no agenda says which
(20_memory R50). -/
opaque cuMovesFirst (draw : Nat) : Bool

end Sys2Proof.Config
end

