-- ==== Sys2Proof/Machine/State.lean ====
section
/-! DEFINITION. The state of a run (10_state R14): the two units, the source memory and the model fault set, with the parameters
of the run (00_scope R7) and the coming events of the total order of steps (20_memory R50) as plain data beside them. -/

namespace Sys2Proof.Machine

/-- The two units (00_scope R2): the color unit and the depth unit. -/
inductive UnitId where
  | cu
  | du
deriving DecidableEq, Repr

/-- `phase` (10_state R16). -/
inductive Phase where
  | idle
  | write
  | notify
deriving DecidableEq, Repr

/-- The values of LAST_STATUS; no other value is ever written to it (60_exceptions R102). -/
inductive Status where
  /-- NONE, 0x00: no command has completed since reset. -/
  | noneYet
  | ok
  | unsupportedFormat
  | dimensionMismatch
  | subscriberFailure
  | invalidGeometry
  | sourceRange
  | illegalCommand
  | subscriberTableFull
  | handleExhausted
  | invalidSink
  | noSuchSubscriber
deriving DecidableEq, Repr

/-- Which DECODE a unit has latched (10_state R33, field op). -/
inductive DecodeOp where
  | color
  | depth
deriving DecidableEq, Repr

/-- LAT = (op, fmt, src, w, h) (10_state R33). -/
structure Latch where
  op  : DecodeOp
  fmt : PixelFormat
  src : Word
  w   : Half
  h   : Half
deriving DecidableEq, Repr

/-- An entry (handle, sink) of a subscription table (10_state R29), and the content of `pend` (R35). -/
structure Subscription where
  handle : Half
  sink   : Byte
deriving DecidableEq, Repr

/-- The registers and hidden fields of one unit (10_state R16 to R35). STATUS, RASTER_DIM, SUB_COUNT and PENDING are views of
these and have no storage of their own. -/
structure UnitState where
  /-- R16 -/
  phase      : Phase
  /-- R16: index of the next subscription to notify. -/
  nidx       : Nat
  /-- R33: meaningful only while the unit is busy. -/
  lat        : Latch
  /-- R22, R32 -/
  allocW     : Half
  /-- R22, R32 -/
  allocH     : Half
  /-- R31: the bytes of the live region, in address order; empty until the first write step after reset (log 10). -/
  raster     : List Byte
  /-- R29: in registration order. -/
  subs       : List Subscription
  /-- R29: in [1, 65536]; 65536 means the handles are exhausted. -/
  nextHandle : Nat
  /-- R35 -/
  pend       : Option Subscription
  /-- R18 -/
  lastStatus : Status
  /-- R21, field HANDLE -/
  result     : Half
  /-- R24 -/
  failHandle : Half
  /-- R19 -/
  srcAddr    : Word
  /-- R20 -/
  frameDim   : Word
deriving DecidableEq, Repr

/-- Source memory (20_memory R40): listed (address, byte) pairs, addresses strictly rising, no byte equal to what an unlisted
address reads as (log 8). `Memory.wf` says so. -/
abbrev Memory := List Host.Cell

/-- The access widths of BUS: 1, 2 or 4 bytes (20_memory R39). -/
inductive Width where
  | byte
  | half
  | word
deriving DecidableEq, Repr

/-- One event of the total order of all agents' steps (20_memory R50). -/
inductive Event where
  /-- A host's BUS write (a sink's ACK among them). -/
  | busWrite (address : BusAddr) (width : Width) (value : Word)
  /-- A host's BUS read. -/
  | busRead (address : BusAddr) (width : Width)
  /-- A host's MemWrite of one byte (mw8, 30_encoding R65). -/
  | memWrite8 (address : Word) (value : Byte)
  /-- A host's MemWrite of two bytes, little-endian (mw16, 30_encoding R65). -/
  | memWrite16 (address : Word) (value : Half)
  /-- A unit's turn: its write, deliver or complete step, whichever is enabled. -/
  | unitTurn (u : UnitId)
  /-- RST asserted (70_reset_and_hazards R116). -/
  | reset
deriving DecidableEq, Repr

/-- A model fault: an element of Faults (60_exceptions R104). Each is recorded by the step of the host's access that breaks the
duty; none of them is an outcome of that step. Safe: what follows is given no meaning. -/
inductive ModelFault where
  /-- A CMD write to a unit whose phase is not IDLE. -/
  | concurrentCommand (u : UnitId) (command : Word)
  /-- A host MemWrite into the latched source range of a unit whose phase is not IDLE. -/
  | sourceModified (u : UnitId) (address : Word)
  /-- A misaligned BUS access, or a 1-byte or 2-byte access inside a register window. -/
  | busMisuse (address : BusAddr) (width : Width)
deriving DecidableEq, Repr

/-- Why a step can stop with a fault. -/
inductive Fault where
  /-- Raised by a host's 2-byte MemWrite at 0xFFFF_FFFF whose first byte is in no busy unit's range: its second byte has no
  address in the 32-bit source space (20_memory R39, log 9). Safe: the spec gives no effect. -/
  | sourceAddressBeyondSpace (address : Word)
deriving DecidableEq, Repr

/-- Why a step can be refused. -/
inductive Refusal where
  /-- Raised by an arm of exec whose instruction has no meaning yet; no arm does. Safe. -/
  | notModelled (mnemonic : String)
  /-- Raised by every step but reset once Faults is not empty, naming the first fault recorded: "the spec says nothing about
  any state after the fault" (93_implementation_defined row 16, 60_exceptions R104, log 6). Safe. -/
  | faultedRun (fault : ModelFault)
deriving DecidableEq, Repr

/-- The state of a run. -/
structure State where
  /-- The run's parameters (00_scope R7); no step changes them (log 1). -/
  params     : Config.Params
  cu         : UnitState
  du         : UnitState
  /-- The CU's scratch buffer: unallocated, or its size in words; its contents are unobservable (10_state R36, log 14). -/
  cuScratch  : Option Nat
  /-- R14, 20_memory R40 -/
  srcMem     : Memory
  /-- R37: in the order recorded, no element twice. -/
  faults     : List ModelFault
  /-- The unit through whose CMD register the current command came (log 5). -/
  port       : UnitId
  /-- The coming events, the next one first (log 2). -/
  agenda     : List Event
  /-- What the latest BUS read gave its host (log 15). -/
  busData    : Word
  /-- Numbers the draws of racing reads and of the units' order (log 3, log 13). -/
  drawCount  : Nat
  /-- Numbers the accepted color frames, for the draws of BOUNDARY_EITHER (log 12). -/
  frameCount : Nat
deriving DecidableEq, Repr

/-- LAT right after reset: unspecified (10_state R38) and never read before it is written; DESIGN CHOICE (log 11). -/
def Latch.unspecified : Latch :=
  { op := .color, fmt := .packedBgr32, src := 0, w := 0, h := 0 }

/-- A unit immediately after reset (10_state R38). -/
def UnitState.reset : UnitState :=
  { phase := .idle, nidx := 0, lat := Latch.unspecified, allocW := 0, allocH := 0, raster := [], subs := [], nextHandle := 1,
    pend := none, lastStatus := .noneYet, result := 0, failHandle := 0, srcAddr := 0, frameDim := 0 }

/-- The start of a run, right after reset (10_state R37, R38; the model's own fields: log 1, 2, 5, 8, 12, 13, 15). -/
def State.reset : State :=
  { params := Config.Params.defaults, cu := UnitState.reset, du := UnitState.reset, cuScratch := none, srcMem := [],
    faults := [], port := .cu, agenda := [], busData := 0, drawCount := 0, frameCount := 0 }

end Sys2Proof.Machine
end

