-- ==== Sys2Proof/Machine/Ops.lean ====
section
/-! DEFINITION. The named operations over memory, units and the fault set: reading and writing source bytes in canonical form,
`raise Status`, `fault`, `emit` (00_scope R11), and the busy check that stands before every command (30_encoding R60). -/

namespace Sys2Proof.Machine

/-! ### Source memory -/

/-- What a source address that nothing has written reads as (log 8). -/
def unlistedByte : Byte := 0

/-- One byte of source memory: MemRead of 1 byte (00_scope R11). -/
def Memory.read : Memory → Nat → Byte
  | [], _ => unlistedByte
  | (a, b) :: rest, k => if a = k then b else Memory.read rest k

/-- One byte written to source memory, in canonical form. -/
def Memory.write : Memory → Nat → Byte → Memory
  | [], k, v => if v = unlistedByte then [] else [(k, v)]
  | (a, b) :: rest, k, v =>
    if k < a then (if v = unlistedByte then (a, b) :: rest else (k, v) :: (a, b) :: rest)
    else if k = a then (if v = unlistedByte then rest else (k, v) :: rest)
    else (a, b) :: Memory.write rest k v

/-- Bytes written at rising addresses. -/
def Memory.writeBytes : Memory → Nat → List Byte → Memory
  | m, _, [] => m
  | m, k, v :: vs => Memory.writeBytes (Memory.write m k v) (k + 1) vs

/-- The canonical form: addresses strictly rising, inside the 32-bit space (20_memory R39), no byte that an unlisted address
reads as. -/
abbrev Memory.wf (m : Memory) : Prop :=
  m.Pairwise (fun x y => x.1 < y.1) ∧ ∀ c ∈ m, c.1 < 2 ^ 32 ∧ c.2 ≠ unlistedByte

/-- MemRead of 2 bytes, little-endian, at any alignment (00_scope R11, 20_memory R43, R49). -/
def Memory.read16 (m : Memory) (a : Nat) : Half := Memory.read m (a + 1) ++ Memory.read m a

/-! ### Units -/

/-- The state of unit `u`. -/
def State.unit (s : State) : UnitId → UnitState
  | .cu => s.cu
  | .du => s.du

/-- `s` with unit `u` changed by `f`, the other unit and everything else untouched. -/
def State.modifyUnit (s : State) (u : UnitId) (f : UnitState → UnitState) : State :=
  match u with
  | .cu => { s with cu := f s.cu }
  | .du => { s with du := f s.du }

/-! ### Status codes and model faults -/

/-- `raise Status(code)` (00_scope R11, 60_exceptions R107): the command ends, LAST_STATUS of the unit is written and nothing
else is; the unit stays IDLE. There is no trap entry and no return (60_exceptions R107, R108). -/
def raiseStatus (code : Status) (s : State) : State :=
  s.modifyUnit s.port fun U => { U with lastStatus := code }

/-- `fault F` (00_scope R11): F is put into Faults, which is a set (10_state R37). Nothing else changes (log 6). -/
def recordFault (f : ModelFault) (s : State) : State :=
  if f ∈ s.faults then s else { s with faults := s.faults ++ [f] }

/-- Several faults of one access, in order. -/
def recordFaults : List ModelFault → State → State
  | [], s => s
  | f :: fs, s => recordFaults fs (recordFault f s)

/-- The first test of 30_encoding R60: a CMD write of `c` to a unit that is not IDLE is the model fault ConcurrentCommand; else
the command proceeds. -/
def issue (c : Word) (command : State → State) (s : State) : State :=
  if (s.unit s.port).phase = .idle then command s else recordFault (.concurrentCommand s.port c) s

/-- A CMD write of a word that no unit takes (30_encoding R60, R62). -/
def illegalCommand (c : Word) (s : State) : State :=
  issue c (raiseStatus .illegalCommand) s

/-- `emit CHANGED(U, h, s)` (42_notifier R95): the event becomes U's pending event. -/
def emitChanged (e : Subscription) (U : UnitState) : UnitState :=
  { U with pend := some e }

/-- RST (70_reset_and_hazards R117): both units take their reset values; the source memory, the fault set and what is not the
block's (log 21) are unchanged. -/
def resetBlock (s : State) : State :=
  { s with cu := UnitState.reset, du := UnitState.reset, cuScratch := none }

end Sys2Proof.Machine
end

