-- ==== Sys2Proof/Machine/Operands.lean ====
section
/-! DEFINITION. Operand forms: the frame operands of a DECODE (30_encoding R59), the source length (20_memory R41), the checks of
an accept step that both DECODEs share, the latch, and the assembly of wide values. -/

namespace Sys2Proof.Machine

/-- `w = FRAME_DIM[15:0]` (30_encoding R59, 10_state R20). -/
def frameW (U : UnitState) : Half := U.frameDim.extractLsb' 0 16

/-- `h = FRAME_DIM[31:16]` (30_encoding R59, 10_state R20). -/
def frameH (U : UnitState) : Half := U.frameDim.extractLsb' 16 16

/-- Bytes per pixel of a color source (20_memory R41). -/
def colorBpp : PixelFormat → Nat
  | .packedBgr32 => 4
  | .uyvy => 2
  | .unrecognized _ => 2

/-- Bytes per pixel of a depth source (20_memory R41). -/
def depthBpp : Nat := 2

/-- `len` of the latched DECODE (20_memory R41). -/
def Latch.length (l : Latch) : Nat :=
  match l.op with
  | .color => l.w.toNat * l.h.toNat * colorBpp l.fmt
  | .depth => l.w.toNat * l.h.toNat * depthBpp

/-- Whether a source address is in `[LAT.src, LAT.src + len - 1]` (20_memory R40, 60_exceptions R104). -/
def Latch.covers (l : Latch) (a : Nat) : Bool :=
  decide (l.src.toNat ≤ a ∧ a < l.src.toNat + l.length)

/-- The checks of an accept step after the format check, in the order of 60_exceptions R106: geometry, source range, dimensions
(40_color_decode R68, 41_depth_decode R80). `pairs` asks for an even width (UYVY only). -/
def frameReject (P : Config.Params) (U : UnitState) (pairs : Bool) (bpp : Nat) : Option Status :=
  if (frameW U).toNat = 0 ∨ (frameH U).toNat = 0 ∨ P.maxW < (frameW U).toNat ∨ P.maxH < (frameH U).toNat then
    some .invalidGeometry
  else if pairs = true ∧ (frameW U).toNat % 2 = 1 then
    some .invalidGeometry
  else if 0xFFFFFFFF < U.srcAddr.toNat + (frameW U).toNat * (frameH U).toNat * bpp - 1 then
    some .sourceRange
  else if U.allocW ≠ 0 ∧ (U.allocW ≠ frameW U ∨ U.allocH ≠ frameH U) then
    some .dimensionMismatch
  else
    none

/-- The writes of an accept step to the unit: the allocation of a first frame, LAT and the phase (40_color_decode R68,
41_depth_decode R80). -/
def latchDecode (op : DecodeOp) (fmt : PixelFormat) (U : UnitState) : UnitState :=
  { U with
    allocW := if U.allocW = 0 then frameW U else U.allocW
    allocH := if U.allocW = 0 then frameH U else U.allocH
    lat := { op := op, fmt := fmt, src := U.srcAddr, w := frameW U, h := frameH U }
    phase := .write }

/-- The number of live raster bytes, `4 * ALLOC_W * ALLOC_H` (10_state R31). -/
def liveBytes (U : UnitState) : Nat := 4 * U.allocW.toNat * U.allocH.toNat

/-- The bytes of an access width. -/
def Width.bytes : Width → Nat
  | .byte => 1
  | .half => 2
  | .word => 4

/-- `n` bytes from `byteAt off` on, little-endian, zero-extended (20_memory R49). -/
def littleEndian (byteAt : Nat → Byte) (off : Nat) : Width → Word
  | .byte => (byteAt off).setWidth 32
  | .half => (byteAt (off + 1) ++ byteAt off).setWidth 32
  | .word => byteAt (off + 3) ++ (byteAt (off + 2) ++ (byteAt (off + 1) ++ byteAt off))

end Sys2Proof.Machine
end

