-- ==== Sys2Proof/Machine/Flags.lean ====
section
/-! DEFINITION. The status flags and the registers that are views of hidden fields: STATUS, RASTER_DIM, SUB_COUNT, PENDING
(10_state R18 to R28), the status code values (60_exceptions R102) and the CHANGED lines (42_notifier R100). -/

namespace Sys2Proof.Machine

/-- The code of a status (60_exceptions R102). -/
def Status.code : Status → Byte
  | .noneYet => 0x00
  | .ok => 0x01
  | .unsupportedFormat => 0x10
  | .dimensionMismatch => 0x11
  | .subscriberFailure => 0x12
  | .invalidGeometry => 0x20
  | .sourceRange => 0x21
  | .illegalCommand => 0x30
  | .subscriberTableFull => 0x40
  | .handleExhausted => 0x41
  | .invalidSink => 0x42
  | .noSuchSubscriber => 0x43

/-- STATUS.BUSY (10_state R18): 1 when the phase is not IDLE. -/
def busyFlag (U : UnitState) : Bool := decide (U.phase ≠ .idle)

/-- STATUS.NOTIFYING (10_state R18). -/
def notifyingFlag (U : UnitState) : Bool := decide (U.phase = .notify)

/-- STATUS.ALLOC (10_state R18). -/
def allocFlag (U : UnitState) : Bool := decide (U.allocW ≠ 0)

/-- STATUS (10_state R18): `{0, LAST_STATUS, 0, ALLOC, NOTIFYING, BUSY}`. -/
def statusRegister (U : UnitState) : Word :=
  (0 : Half) ++ (U.lastStatus.code ++ ((0 : BitVec 5) ++
    (BitVec.ofBool (allocFlag U) ++ (BitVec.ofBool (notifyingFlag U) ++ BitVec.ofBool (busyFlag U)))))

/-- RESULT (10_state R21). -/
def resultRegister (U : UnitState) : Word := (0 : Half) ++ U.result

/-- RASTER_DIM (10_state R22). -/
def rasterDimRegister (U : UnitState) : Word := U.allocH ++ U.allocW

/-- SUB_COUNT (10_state R23). -/
def subCountRegister (U : UnitState) : Word := (0 : BitVec 24) ++ BitVec.ofNat 8 U.subs.length

/-- FAIL_HANDLE (10_state R24). -/
def failHandleRegister (U : UnitState) : Word := (0 : Half) ++ U.failHandle

/-- PENDING (10_state R25): `{VALID, 0, SINK, HANDLE}`, all 0 when no event is pending. -/
def pendingRegister (U : UnitState) : Word :=
  match U.pend with
  | none => 0
  | some e => (1 : BitVec 1) ++ ((0 : BitVec 7) ++ (e.sink ++ e.handle))

/-- Whether a unit's pending event is addressed to sink `k`. -/
def pendsFor (U : UnitState) (k : Nat) : Bool :=
  match U.pend with
  | none => false
  | some e => decide (e.sink.toNat = k)

/-- The level of line `CHG[k]`, for `k` below SINK_COUNT (42_notifier R100). -/
def changedLine (s : State) (k : Nat) : Bool := pendsFor s.cu k || pendsFor s.du k

end Sys2Proof.Machine
end

