-- ==== Sys2Proof/Machine/Color.lean ====
section
/-! DEFINITION. The color unit: DECODE_COLOR's accept step (40_color_decode R67, R68), the packed path (R70), the UYVY unpacker
(R72) and the matrix CSC (R73 to R75). The write step that stores these bytes is in Units.lean. -/

namespace Sys2Proof.Machine

/-! ### Matrix CSC -/

/-- nB of 40_color_decode R73. -/
def numeratorB (y u : Byte) : Int := 1164 * ((y.toNat : Int) - 16) + 2018 * ((u.toNat : Int) - 128)

/-- nG of 40_color_decode R73. -/
def numeratorG (y u v : Byte) : Int :=
  1164 * ((y.toNat : Int) - 16) - 813 * ((v.toNat : Int) - 128) - 391 * ((u.toNat : Int) - 128)

/-- nR of 40_color_decode R73. -/
def numeratorR (y v : Byte) : Int := 1164 * ((y.toNat : Int) - 16) + 1596 * ((v.toNat : Int) - 128)

/-- `clamp255` of 00_scope R10. -/
def clamp255 (x : Int) : Int := max 0 (min x 255)

/-- `clamp255(floor(n / 1000))` (40_color_decode R73); Int division by 1000 rounds toward negative infinity (00_scope R10). -/
def channelExact (n : Int) : Int := clamp255 (n / 1000)

/-- A boundary point (40_color_decode R75). -/
def boundaryPoint (n : Int) : Bool := decide (n % 1000 = 0 ∧ 1000 ≤ n ∧ n ≤ 255000)

/-- CH(n) under either CSC_NUMERICS (40_color_decode R75); `low` is the draw of a boundary point. -/
def channelValue (numerics : Config.CscNumerics) (low : Bool) (n : Int) : Int :=
  match numerics with
  | .exact => channelExact n
  | .boundaryEither => if boundaryPoint n && low then n / 1000 - 1 else channelExact n

/-- A channel as a raster byte. -/
def channelByte (numerics : Config.CscNumerics) (low : Bool) (n : Int) : Byte :=
  BitVec.ofNat 8 (channelValue numerics low n).toNat

/-- The pixel `[B, G, R, 0xFF]` of CSC(y, u, v) (40_color_decode R71, R72, R73), as pixel `pixel` of color frame `frame`. -/
def cscPixel (numerics : Config.CscNumerics) (frame pixel : Nat) (y u v : Byte) : List Byte :=
  [channelByte numerics (Config.cscDraw frame pixel 0) (numeratorB y u),
   channelByte numerics (Config.cscDraw frame pixel 1) (numeratorG y u v),
   channelByte numerics (Config.cscDraw frame pixel 2) (numeratorR y v),
   0xFF]

/-! ### The two paths -/

/-- PACKED_PIXEL(src, p) (40_color_decode R70). -/
def packedPixel (m : Memory) (src p : Nat) : List Byte :=
  [Memory.read m (src + 4 * p), Memory.read m (src + 4 * p + 1), Memory.read m (src + 4 * p + 2),
   Memory.read m (src + 4 * p + 3)]

/-- UYVY_GROUP(src, g) (40_color_decode R72): bytes U, Y0, V, Y1; two pixels sharing U and V. -/
def uyvyGroup (numerics : Config.CscNumerics) (frame : Nat) (m : Memory) (src g : Nat) : List Byte :=
  cscPixel numerics frame (2 * g) (Memory.read m (src + 4 * g + 1)) (Memory.read m (src + 4 * g))
      (Memory.read m (src + 4 * g + 2)) ++
    cscPixel numerics frame (2 * g + 1) (Memory.read m (src + 4 * g + 3)) (Memory.read m (src + 4 * g))
      (Memory.read m (src + 4 * g + 2))

/-- The pixels of a packed frame of `n` pixels. -/
def packedFrame (m : Memory) (src n : Nat) : List Byte :=
  (List.range n).flatMap (packedPixel m src)

/-- The pixels of a UYVY frame of `n` pixels: `n / 2` groups. -/
def uyvyFrame (numerics : Config.CscNumerics) (frame : Nat) (m : Memory) (src n : Nat) : List Byte :=
  (List.range (n / 2)).flatMap (uyvyGroup numerics frame m src)

/-- NEW of the CU's write step (40_color_decode R69, 10_state R34): fmt 0 is the packed path, else the UYVY path. -/
def colorFrame (s : State) (l : Latch) : List Byte :=
  match l.fmt with
  | .packedBgr32 => packedFrame s.srcMem l.src.toNat (l.w.toNat * l.h.toNat)
  | .uyvy => uyvyFrame s.params.cscNumerics s.frameCount s.srcMem l.src.toNat (l.w.toNat * l.h.toNat)
  | .unrecognized _ => uyvyFrame s.params.cscNumerics s.frameCount s.srcMem l.src.toNat (l.w.toNat * l.h.toNat)

/-! ### DECODE_COLOR -/

/-- The status a color frame is rejected with, if any (40_color_decode R68): the format first, then the checks both DECODEs
share. -/
def colorReject (P : Config.Params) (U : UnitState) : PixelFormat → Option Status
  | .packedBgr32 => frameReject P U false (colorBpp .packedBgr32)
  | .uyvy => frameReject P U true (colorBpp .uyvy)
  | .unrecognized _ => some .unsupportedFormat

/-- The scratch buffer is sized at the first accepted UYVY frame and never again (10_state R36, 40_color_decode R68). -/
def sizeScratch (fmt : PixelFormat) (U : UnitState) (scratch : Option Nat) : Option Nat :=
  match fmt, scratch with
  | .uyvy, none => some ((frameW U).toNat * (frameH U).toNat)
  | _, kept => kept

/-- The accepted branch of 40_color_decode R68. -/
def acceptColor (fmt : PixelFormat) (s : State) : State :=
  { s with
    cu := latchDecode .color fmt s.cu
    cuScratch := sizeScratch fmt s.cu s.cuScratch
    frameCount := s.frameCount + 1 }

/-- The accept step of 40_color_decode R68. -/
def colorAcceptStep (fmt : PixelFormat) (s : State) : State :=
  match colorReject s.params s.cu fmt with
  | some code => raiseStatus code s
  | none => acceptColor fmt s

/-- DECODE_COLOR (40_color_decode R67, R68): a model fault on a busy unit, illegal on the DU (30_encoding R62), else the CU's
accept step. The write step and the NOTIFY phase are later steps of the CU. -/
def execDecodeColor (fmt : PixelFormat) (s : State) : Host.Outcome State Fault Refusal :=
  .next (issue (encode (.decodeColor fmt))
    (fun s => if s.port = .cu then colorAcceptStep fmt s else raiseStatus .illegalCommand s) s)

end Sys2Proof.Machine
end

