-- ==== Sys2Proof/Machine/Depth.lean ====
section
/-! DEFINITION. The depth unit: DECODE_DEPTH's accept step (41_depth_decode R79, R80), the sample unpacker (R82, R83), the
intensity (R84, R85) and the palette (R86, R87). The write step that stores these bytes is in Units.lean. -/

namespace Sys2Proof.Machine

/-- The fixed distance ceiling (00_scope R8). -/
def distanceCeiling : Nat := 8191

/-- The segmentation tag, `s[2:0]` (41_depth_decode R82). -/
def sampleTag (sample : Half) : BitVec 3 := sample.extractLsb' 0 3

/-- The raw distance, `s[15:3]`, unsigned (41_depth_decode R83, 90_conflicts C3). -/
def sampleDistance (sample : Half) : Nat := (sample.extractLsb' 3 13).toNat

/-- The intensity (41_depth_decode R84). -/
def intensity (d : Nat) : Nat := 255 - (255 * d) / distanceCeiling

/-- The half intensity (41_depth_decode R85). -/
def halfIntensity (i : Nat) : Nat := i / 2

/-- The palette, `(R, G, B)` (41_depth_decode R86). -/
def palette (tag : BitVec 3) (i : Nat) : Nat × Nat × Nat :=
  match tag.toNat with
  | 0 => (halfIntensity i, halfIntensity i, halfIntensity i)
  | 1 => (i, 0, 0)
  | 2 => (0, i, 0)
  | 3 => (0, 0, i)
  | 4 => (i, i, 0)
  | 5 => (i, 0, i)
  | 6 => (0, i, i)
  | _ => (i, i, i)

/-- DEPTH_PIXEL(s) = `[B, G, R, 0xFF]` (41_depth_decode R87, R88). -/
def depthPixel (sample : Half) : List Byte :=
  match palette (sampleTag sample) (intensity (sampleDistance sample)) with
  | (r, g, b) => [BitVec.ofNat 8 b, BitVec.ofNat 8 g, BitVec.ofNat 8 r, 0xFF]

/-- NEW of the DU's write step (41_depth_decode R81, 10_state R34): sample i is the 2 bytes at `src + 2i`. -/
def depthFrame (s : State) (l : Latch) : List Byte :=
  (List.range (l.w.toNat * l.h.toNat)).flatMap fun i => depthPixel (Memory.read16 s.srcMem (l.src.toNat + 2 * i))

/-- The accepted branch of 41_depth_decode R80; its latch has fmt 0. -/
def acceptDepth (s : State) : State :=
  { s with du := latchDecode .depth .packedBgr32 s.du }

/-- The accept step of 41_depth_decode R80. -/
def depthAcceptStep (s : State) : State :=
  match frameReject s.params s.du false depthBpp with
  | some code => raiseStatus code s
  | none => acceptDepth s

/-- DECODE_DEPTH (41_depth_decode R79, R80): a model fault on a busy unit, illegal on the CU (30_encoding R62), else the DU's
accept step. The write step and the NOTIFY phase are later steps of the DU. -/
def execDecodeDepth (s : State) : Host.Outcome State Fault Refusal :=
  .next (issue (encode .decodeDepth)
    (fun s => if s.port = .du then depthAcceptStep s else raiseStatus .illegalCommand s) s)

end Sys2Proof.Machine
end

