-- ==== Sys2Proof/Machine/Notifier.lean ====
section
/-! DEFINITION. The change notifier each unit has: SUBSCRIBE and UNSUBSCRIBE (42_notifier R91, R92) and the NOTIFY phase: the
deliver and complete steps (R94, R98) and the sink's acknowledgement (R96, R97, R99). -/

namespace Sys2Proof.Machine

/-! ### Commands -/

/-- The status a SUBSCRIBE is rejected with, if any, in the order of 42_notifier R91. -/
def subscribeReject (P : Config.Params) (U : UnitState) (sink : Byte) : Option Status :=
  if P.sinkCount ≤ sink.toNat then some .invalidSink
  else if U.subs.length = P.subMax then some .subscriberTableFull
  else if U.nextHandle = 65536 then some .handleExhausted
  else none

/-- SUBSCRIBE on an idle unit (42_notifier R91). -/
def subscribeUnit (P : Config.Params) (sink : Byte) (U : UnitState) : UnitState :=
  match subscribeReject P U sink with
  | some code => { U with result := 0, lastStatus := code }
  | none =>
    { U with
      nextHandle := U.nextHandle + 1
      subs := U.subs ++ [{ handle := BitVec.ofNat 16 U.nextHandle, sink := sink }]
      result := BitVec.ofNat 16 U.nextHandle
      lastStatus := .ok }

/-- Whether a table has an entry of this handle. -/
def hasHandle (subs : List Subscription) (handle : Half) : Bool := subs.any fun e => e.handle == handle

/-- UNSUBSCRIBE on an idle unit (42_notifier R92). -/
def unsubscribeUnit (handle : Half) (U : UnitState) : UnitState :=
  if handle = 0 ∨ hasHandle U.subs handle = false then { U with lastStatus := .noSuchSubscriber }
  else { U with subs := U.subs.filter (fun e => e.handle != handle), lastStatus := .ok }

/-- SUBSCRIBE (42_notifier R91): one step within the CMD write. -/
def execSubscribe (sink : Byte) (s : State) : Host.Outcome State Fault Refusal :=
  .next (issue (encode (.subscribe sink)) (fun s => s.modifyUnit s.port (subscribeUnit s.params sink)) s)

/-- UNSUBSCRIBE (42_notifier R92): one step within the CMD write. -/
def execUnsubscribe (handle : Half) (s : State) : Host.Outcome State Fault Refusal :=
  .next (issue (encode (.unsubscribe handle)) (fun s => s.modifyUnit s.port (unsubscribeUnit handle)) s)

/-! ### The NOTIFY phase -/

/-- The complete step (42_notifier R98). -/
def completeDecode (U : UnitState) : UnitState :=
  { U with lastStatus := .ok, phase := .idle }

/-- A unit's own step in NOTIFY: deliver (42_notifier R94), complete (R98), or none while an event is pending. -/
def notifyStep (U : UnitState) : UnitState :=
  match U.pend with
  | some _ => U
  | none =>
    match U.subs[U.nidx]? with
    | some e => emitChanged e U
    | none => if U.nidx = U.subs.length then completeDecode U else U

/-- ACK of OK (42_notifier R96). -/
def ackOk (U : UnitState) : UnitState :=
  { U with pend := none, nidx := U.nidx + 1 }

/-- ACK of FAIL while `e` is pending (42_notifier R97). -/
def ackFail (e : Subscription) (U : UnitState) : UnitState :=
  { U with pend := none, failHandle := e.handle, lastStatus := .subscriberFailure, phase := .idle }

/-- A 4-byte write of `v` to ACK (10_state R26, 42_notifier R96, R97, R99): CODE is `v[1:0]`. -/
def writeAck (v : Word) (U : UnitState) : UnitState :=
  match U.pend with
  | none => U
  | some e =>
    if v.extractLsb' 0 2 = (1 : BitVec 2) then ackOk U
    else if v.extractLsb' 0 2 = (2 : BitVec 2) then ackFail e U
    else U

end Sys2Proof.Machine
end

