-- ==== Sys2Proof/Machine/Units.lean ====
section
/-! DEFINITION. The steps a unit takes by itself: the write step (40_color_decode R69, 41_depth_decode R81) and the steps of the
NOTIFY phase (42_notifier R94, R98); and what the units do while no event is outstanding (70_reset_and_hazards R129). -/

namespace Sys2Proof.Machine

/-- NEW(U): the live bytes the write step of U will store (10_state R34). -/
def newFrame (s : State) : UnitId → List Byte
  | .cu => colorFrame s s.cu.lat
  | .du => depthFrame s s.du.lat

/-- The write step stores NEW and enters NOTIFY with nidx 0 (40_color_decode R69, 41_depth_decode R81). -/
def storeFrame (new : List Byte) (U : UnitState) : UnitState :=
  { U with raster := new, nidx := 0, phase := .notify }

/-- One turn of unit `u`: its one enabled step, or nothing where none is enabled (10_state R16, log 16). -/
def unitStep (u : UnitId) (s : State) : State :=
  match (s.unit u).phase with
  | .idle => s
  | .write => s.modifyUnit u (storeFrame (newFrame s u))
  | .notify => s.modifyUnit u notifyStep

/-- Whether a unit has an enabled step of its own (40_color_decode R69, 41_depth_decode R81, 42_notifier R94, R98). -/
def stepEnabled (U : UnitState) : Bool :=
  match U.phase with
  | .idle => false
  | .write => true
  | .notify => U.pend.isNone && decide (U.nidx ≤ U.subs.length)

/-- No event is outstanding: an enabled unit takes its step (70_reset_and_hazards R129); where both are enabled a free value says
which (20_memory R50, log 3); where none is, nothing happens (60_exceptions R115). -/
def freeRun (s : State) : State :=
  if stepEnabled s.cu && stepEnabled s.du then
    unitStep (if Config.cuMovesFirst s.drawCount then .cu else .du) { s with drawCount := s.drawCount + 1 }
  else if stepEnabled s.cu then unitStep .cu s
  else unitStep .du s

end Sys2Proof.Machine
end

