-- ==== Sys2Proof/Machine/Bus.lean ====
section
/-! DEFINITION. The host's side: the BUS address map (20_memory R42), the registers behind it (10_state R17 to R27), raster reads
(20_memory R45, R48, R49), access rules (R43, R44), MemWrite (70_reset_and_hazards R122) and RST (R117), and which of these
the next event of the agenda is. -/

namespace Sys2Proof.Machine

/-! ### Address map -/

/-- The registers of a unit window (10_state B4). -/
inductive Register where
  | cmd
  | status
  | srcAddr
  | frameDim
  | result
  | rasterDim
  | subCount
  | failHandle
  | pending
  | ack
  /-- Offsets 0x28 to 0xFC (R27). -/
  | reserved
deriving DecidableEq, Repr

/-- What is at a BUS address (20_memory R42). -/
inductive Place where
  | register (u : UnitId) (r : Register)
  | raster (u : UnitId) (off : Nat)
  | unmapped
deriving DecidableEq, Repr

/-- The register an offset of a window lies in; an aligned access names its first byte (10_state B4). -/
def registerAt (off : Nat) : Register :=
  match off / 4 with
  | 0 => .cmd
  | 1 => .status
  | 2 => .srcAddr
  | 3 => .frameDim
  | 4 => .result
  | 5 => .rasterDim
  | 6 => .subCount
  | 7 => .failHandle
  | 8 => .pending
  | 9 => .ack
  | _ => .reserved

/-- `base(U)` (20_memory R42). -/
def windowBase : UnitId → Nat
  | .cu => 0x000000
  | .du => 0x000100

/-- `rbase(U)` (20_memory R42). -/
def rasterBase : UnitId → Nat
  | .cu => 0x400000
  | .du => 0x600000

/-- The BUS address map (20_memory R42). -/
def placeAt (a : BusAddr) : Place :=
  if a.toNat < 0x000100 then .register .cu (registerAt a.toNat)
  else if a.toNat < 0x000200 then .register .du (registerAt (a.toNat - 0x000100))
  else if a.toNat < 0x400000 then .unmapped
  else if a.toNat < 0x600000 then .raster .cu (a.toNat - 0x400000)
  else if a.toNat < 0x800000 then .raster .du (a.toNat - 0x600000)
  else .unmapped

/-- The address of U.CMD (20_memory R42, 10_state R17). -/
def cmdAddress (u : UnitId) : BusAddr := BitVec.ofNat 24 (windowBase u)

/-- A BUS access the host must not make: misaligned (20_memory R43), or narrow in a register window (R44). -/
def misused (a : BusAddr) (n : Width) : Bool :=
  decide (a.toNat % n.bytes ≠ 0) ||
    match placeAt a with
    | .register _ _ => decide (n ≠ .word)
    | .raster _ _ => false
    | .unmapped => false

/-! ### Reads -/

/-- What a 4-byte read of a register gives (10_state R17 to R27). -/
def readRegister (U : UnitState) : Register → Word
  | .cmd => 0
  | .status => statusRegister U
  | .srcAddr => U.srcAddr
  | .frameDim => U.frameDim
  | .result => resultRegister U
  | .rasterDim => rasterDimRegister U
  | .subCount => subCountRegister U
  | .failHandle => failHandleRegister U
  | .pending => pendingRegister U
  | .ack => 0
  | .reserved => 0

/-- RasterRead(U, off) (00_scope R11); a byte no write step has stored since reset is a draw (10_state R38, log 10). -/
def rasterRead (s : State) (u : UnitId) (off : Nat) : Byte :=
  (s.unit u).raster.getD off (Config.raceAnyByte s.drawCount off)

/-- NEW(U)[off] (10_state R34). -/
def newByte (s : State) (u : UnitId) (off : Nat) : Byte := (newFrame s u).getD off 0

/-- A live raster byte read while the unit is in WRITE (20_memory R48). -/
def racingRead (s : State) (u : UnitId) (off : Nat) : Byte :=
  match s.params.raceRead with
  | .oldOrNew => if Config.raceShowsNew s.drawCount off then newByte s u off else rasterRead s u off
  | .any => Config.raceAnyByte s.drawCount off

/-- Byte `off` of U's raster window (20_memory R45). -/
def windowByte (s : State) (u : UnitId) (off : Nat) : Byte :=
  if (s.unit u).allocW ≠ 0 ∧ off < liveBytes (s.unit u) then
    if (s.unit u).phase = .write then racingRead s u off else rasterRead s u off
  else 0

/-- What an aligned read gives its host (20_memory R42, R44, R45, R49). -/
def readPlace (s : State) (n : Width) : Place → Word
  | .register u r => readRegister (s.unit u) r
  | .raster u off => littleEndian (windowByte s u) off n
  | .unmapped => 0

/-- A raster read in the WRITE phase uses up a draw (20_memory R48). -/
def readDraws (s : State) : Place → Nat
  | .register _ _ => 0
  | .raster u _ => if (s.unit u).phase = .write then 1 else 0
  | .unmapped => 0

/-- A BUS read (20_memory R43 to R49): the host gets its data; nothing of the block changes (R47). -/
def busRead (a : BusAddr) (n : Width) (s : State) : State :=
  if misused a n then recordFault (.busMisuse a n) s
  else { s with busData := readPlace s n (placeAt a), drawCount := s.drawCount + readDraws s (placeAt a) }

/-! ### Writes -/

/-- A 4-byte write to a register other than CMD: SRC_ADDR and FRAME_DIM hold it (10_state R19, R20), ACK acts on it (R26), every
other register ignores it (R18, R21 to R25, R27). -/
def writeRegister (r : Register) (v : Word) (U : UnitState) : UnitState :=
  match r with
  | .srcAddr => { U with srcAddr := v }
  | .frameDim => { U with frameDim := v }
  | .ack => writeAck v U
  | .cmd => U
  | .status => U
  | .result => U
  | .rasterDim => U
  | .subCount => U
  | .failHandle => U
  | .pending => U
  | .reserved => U

/-- SourceModified, where a MemWrite of the byte at `a` is inside the latched range of unit `u` while it is busy: one for each
unit and byte (70_reset_and_hazards R122, log 7). An address past the source space is no address (20_memory R39). -/
def sourceFaultsOf (s : State) (u : UnitId) (a : Nat) : List ModelFault :=
  if a < 2 ^ 32 ∧ (s.unit u).phase ≠ .idle ∧ (s.unit u).lat.covers a = true then [.sourceModified u (BitVec.ofNat 32 a)] else []

/-- The faults of a MemWrite of `n` bytes at `a`. -/
def sourceFaults (s : State) (a : Nat) : Nat → List ModelFault
  | 0 => []
  | n + 1 => sourceFaultsOf s .cu a ++ sourceFaultsOf s .du a ++ sourceFaults s (a + 1) n

/-- A host MemWrite of `bytes` at `a` (00_scope R11): SourceModified where one of its bytes is in a busy unit's range
(70_reset_and_hazards R122, 60_exceptions R104), wherever the write ends; else a write past the end of the source space stops
(log 9). -/
def memWrite (a : Word) (bytes : List Byte) (s : State) : Host.Outcome State Fault Refusal :=
  match sourceFaults s a.toNat bytes.length with
  | f :: fs => .next (recordFaults (f :: fs) s)
  | [] =>
    if a.toNat + bytes.length ≤ 2 ^ 32 then .next { s with srcMem := Memory.writeBytes s.srcMem a.toNat bytes }
    else .fault (.sourceAddressBeyondSpace a)

/-! ### The next event -/

/-- What the next event comes to: a command word for the decoder, its unit chosen, or an outcome at once. -/
inductive Move where
  | command (c : Word) (s : State)
  | answer (o : Host.Outcome State Fault Refusal)

/-- A BUS write (20_memory R42 to R45): to CMD it is a command (30_encoding R60). -/
def busWrite (a : BusAddr) (n : Width) (v : Word) (s : State) : Move :=
  if misused a n then .answer (.next (recordFault (.busMisuse a n) s))
  else
    match placeAt a with
    | .register u .cmd => .command v { s with port := u }
    | .register u r => .answer (.next (s.modifyUnit u (writeRegister r v)))
    | .raster _ _ => .answer (.next s)
    | .unmapped => .answer (.next s)

/-- One event in a run without faults; `s` is the state with the event taken off the agenda. -/
def perform (s : State) : Event → Move
  | .busWrite a n v => busWrite a n v s
  | .busRead a n => .answer (.next (busRead a n s))
  | .memWrite8 a v => .answer (memWrite a [v] s)
  | .memWrite16 a v => .answer (memWrite a [v.extractLsb' 0 8, v.extractLsb' 8 8] s)
  | .unitTurn u => .answer (.next (unitStep u s))
  | .reset => .answer (.next (resetBlock s))

/-- One event in a run that has faulted: the spec gives it no meaning, but RST is still reset (70_reset_and_hazards R117, 60_exceptions
R104, log 6). -/
def performFaulted (f : ModelFault) (s : State) : Event → Move
  | .reset => .answer (.next (resetBlock s))
  | .busWrite _ _ _ => .answer (.refused (.faultedRun f))
  | .busRead _ _ => .answer (.refused (.faultedRun f))
  | .memWrite8 _ _ => .answer (.refused (.faultedRun f))
  | .memWrite16 _ _ => .answer (.refused (.faultedRun f))
  | .unitTurn _ => .answer (.refused (.faultedRun f))

/-- The next move of the total order of steps (20_memory R50): the agenda's next event, or the units' own steps when it is
empty. -/
def nextMove (s : State) : Move :=
  match s.faults, s.agenda with
  | [], [] => .answer (.next (freeRun s))
  | [], e :: rest => perform { s with agenda := rest } e
  | f :: _, [] => .answer (.refused (.faultedRun f))
  | f :: _, e :: rest => performFaulted f { s with agenda := rest } e

/-- The unit a command word is sent to when it is put before the machine from outside: DECODE_DEPTH's opcode goes to the DU, every
other word to the CU (30_encoding R61, log 4). -/
def fetchPort (c : Word) : UnitId := if opField c = 0x02 then .du else .cu

/-- The host's CMD write of `c` to unit `u` (30_encoding R60). -/
def commandEvent (u : UnitId) (c : Word) : Event := .busWrite (cmdAddress u) .word c

end Sys2Proof.Machine
end

