-- ==== Sys2Proof/Machine/Dispatch.lean ====
section
/-! DEFINITION. One arm per command (30_encoding R61). -/

namespace Sys2Proof.Machine

/-- The meaning of a command written to the CMD register of unit `s.port`. -/
def exec (i : Instr) (s : State) : Host.Outcome State Fault Refusal :=
  match i with
  | .decodeColor fmt => Sys2Proof.Machine.execDecodeColor fmt s
  | .decodeDepth => Sys2Proof.Machine.execDecodeDepth s
  | .subscribe sink => Sys2Proof.Machine.execSubscribe sink s
  | .unsubscribe handle => Sys2Proof.Machine.execUnsubscribe handle s

end Sys2Proof.Machine
end

