-- ==== Sys2Proof/Machine/Step.lean ====
section
/-! DEFINITION. One step of the run: one event of the total order of 20_memory R50. A CMD write is decoded and executed, or is an
illegal command (30_encoding R60). -/

namespace Sys2Proof.Machine

/-- A command word at its unit (30_encoding R60). -/
def stepCommand (c : Word) (s : State) : Host.Outcome State Fault Refusal :=
  match decode c with
  | .instr i => exec i s
  | .reject _ => .next (illegalCommand c s)

/-- One step. -/
def step (s : State) : Host.Outcome State Fault Refusal :=
  match nextMove s with
  | .command c s' => stepCommand c s'
  | .answer o => o

/-- `s` with the host's CMD write of a table row's word as its next event (log 4). -/
def State.withFetchWord (s : State) (nbits w : Nat) : State :=
  { s with agenda := commandEvent (fetchPort (commandWord nbits w)) (commandWord nbits w) :: s.agenda }

end Sys2Proof.Machine
end

