-- ==== Sys2Proof/Safety.lean ====
section
/-! DEFINITION. The terms claims about runs are made in: the invariant of reachable states, the legal phase changes (10_state R16),
and the CHANGED events of a run (42_notifier R101). -/

namespace Sys2Proof.Safety

open Sys2Proof.Machine

/-- A run without faults (60_exceptions R104: "a claim about a run must assume that Faults is empty"). -/
abbrev FaultFree (s : State) : Prop := s.faults = []

/-- The DECODE a unit accepts (30_encoding R61). -/
def decodeOpOf : UnitId → DecodeOp
  | .cu => .color
  | .du => .depth

/-- The formats a latched DECODE can have: a recognized one, UYVY with an even width (40_color_decode R68), 0 on the DU
(41_depth_decode R80). -/
abbrev LatchFormatLegal (u : UnitId) (l : Latch) : Prop :=
  l.fmt = .packedBgr32 ∨ (u = .cu ∧ l.fmt = .uyvy ∧ l.w.toNat % 2 = 0)

/-- What holds of a busy unit: its raster is allocated with the latched dimensions, and the source range it will read is inside
the source space (40_color_decode R68, 41_depth_decode R80). -/
structure BusyInv (u : UnitId) (U : UnitState) : Prop where
  allocated : U.allocW ≠ 0
  latW : U.lat.w = U.allocW
  latH : U.lat.h = U.allocH
  latOp : U.lat.op = decodeOpOf u
  latFormat : LatchFormatLegal u U.lat
  sourceFits : U.lat.src.toNat + U.lat.length ≤ 2 ^ 32

/-- The invariant of one unit. -/
structure UnitInv (P : Config.Params) (u : UnitId) (U : UnitState) : Prop where
  /-- 10_state R29: at most SUB_MAX entries. -/
  subsBound : U.subs.length ≤ P.subMax
  /-- 10_state R29: no two entries share a handle. -/
  handlesDistinct : (U.subs.map Subscription.handle).Nodup
  /-- 42_notifier R91: handles are 1 up to the last one handed out. -/
  handlesIssued : ∀ e ∈ U.subs, 1 ≤ e.handle.toNat ∧ e.handle.toNat < U.nextHandle
  /-- 42_notifier R91: every sink exists. -/
  sinksExist : ∀ e ∈ U.subs, e.sink.toNat < P.sinkCount
  /-- 10_state R29. -/
  nextHandleRange : 1 ≤ U.nextHandle ∧ U.nextHandle ≤ 65536
  /-- 10_state R16: nidx is in [0, SUB_MAX]. -/
  nidxRange : U.nidx ≤ P.subMax
  /-- 42_notifier R93: while notifying, nidx is a position of the table or its end. -/
  nidxInTable : U.phase = .notify → U.nidx ≤ U.subs.length
  /-- 10_state R22: both dimensions are set together. -/
  allocTogether : U.allocW = 0 ↔ U.allocH = 0
  /-- 40_color_decode R68, 41_depth_decode R80: an allocated raster is within MAX_W and MAX_H. -/
  allocFits : U.allocW.toNat ≤ P.maxW ∧ U.allocH.toNat ≤ P.maxH
  /-- R33: what the latch says while the unit is busy. -/
  busy : U.phase ≠ .idle → BusyInv u U
  /-- 40_color_decode R69, 41_depth_decode R81: a raster that has been written is written whole; one that has not is not
  allocated, or is being written. -/
  rasterWhole : (U.allocW ≠ 0 ∧ U.raster.length = liveBytes U) ∨ (U.raster = [] ∧ (U.allocW = 0 ∨ U.phase = .write))
  /-- 42_notifier R94, R95: a pending event is that of the entry at nidx. -/
  pending : ∀ e, U.pend = some e → U.phase = .notify ∧ U.subs[U.nidx]? = some e

/-- The invariant of a run. -/
structure Inv (s : State) : Prop where
  paramsLegal : s.params.Legal
  cu : UnitInv s.params .cu s.cu
  du : UnitInv s.params .du s.du
  srcMem : Memory.wf s.srcMem
  /-- 10_state R37: Faults is a set. -/
  faultsDistinct : s.faults.Nodup
  /-- 10_state R36: the scratch buffer has ALLOC_W * ALLOC_H words. -/
  scratch : ∀ n, s.cuScratch = some n → s.cu.allocW ≠ 0 ∧ n = s.cu.allocW.toNat * s.cu.allocH.toNat

/-- Whether the next event is a turn of unit `u`: named by the agenda, or taken because no event is outstanding. -/
def UnitTurn (u : UnitId) (s : State) : Prop := s.agenda = [] ∨ s.agenda.head? = some (.unitTurn u)

/-- The address of U.ACK (20_memory R42, 10_state R26). -/
def ackAddress (u : UnitId) : BusAddr := BitVec.ofNat 24 (windowBase u + 0x24)

/-- A 4-byte write of `v` to U.ACK. -/
def ackEvent (u : UnitId) (v : Word) : Event := .busWrite (ackAddress u) .word v

/-- The instruction is the DECODE that unit `u` accepts (30_encoding R61). -/
def DecodeFor : UnitId → Instr → Prop
  | .cu, .decodeColor _ => True
  | .du, .decodeDepth => True
  | _, _ => False

/-- The legal transitions of 10_state R16, each with what takes it; `stay` is IDLE to IDLE, NOTIFY to NOTIFY and a step of
another agent. -/
inductive PhaseChange (u : UnitId) (s : State) : Phase → Phase → Prop
  | stay (p : Phase) : PhaseChange u s p p
  | accept (c : Word) (i : Instr) (taken : s.agenda.head? = some (commandEvent u c)) (meant : decode c = .instr i)
      (decodes : DecodeFor u i) : PhaseChange u s .idle .write
  | written (turn : UnitTurn u s) : PhaseChange u s .write .notify
  | completed (turn : UnitTurn u s) : PhaseChange u s .notify .idle
  | failed (v : Word) (taken : s.agenda.head? = some (ackEvent u v)) (code : v.extractLsb' 0 2 = (2 : BitVec 2)) :
      PhaseChange u s .notify .idle
  | reset (p : Phase) (taken : s.agenda.head? = some .reset) : PhaseChange u s p .idle

/-- The bytes of a host's MemWrite, low byte first (30_encoding R65, mw8 and mw16). -/
def MemWriteOf (e : Event) (a : Word) (bytes : List Nat) : Prop :=
  (∃ v : Byte, e = .memWrite8 a v ∧ bytes = [v.toNat]) ∨ ∃ v : Half, e = .memWrite16 a v ∧ bytes = [v.toNat % 256, v.toNat / 256]

/-- A byte at `a` is in the latched range of unit `u`, and `u` is busy (70_reset_and_hazards R122). -/
def InBusyRange (s : State) (u : UnitId) (a : Nat) : Prop :=
  (s.unit u).phase ≠ .idle ∧ (s.unit u).lat.src.toNat ≤ a ∧ a < (s.unit u).lat.src.toNat + (s.unit u).lat.length

/-- The CHANGED event unit `u` emits between two states, if any (42_notifier R95). -/
def emitted (u : UnitId) (before after : State) : List Subscription :=
  match (before.unit u).pend with
  | some _ => []
  | none => (after.unit u).pend.toList

/-- The CHANGED events unit `u` emits in the next `k` steps, in order. -/
def changedEvents (u : UnitId) : Nat → State → List Subscription
  | 0, _ => []
  | k + 1, s =>
    match step s with
    | .next s' => emitted u s s' ++ changedEvents u k s'
    | .fault _ => []
    | .refused _ => []

/-- `n` deliveries, each acknowledged with OK (42_notifier R94, R96). -/
def okRounds (u : UnitId) : Nat → List Event
  | 0 => []
  | n + 1 => .unitTurn u :: ackEvent u 1 :: okRounds u n

end Sys2Proof.Safety
end

