-- ==== Sys2Proof/Certificates/Slice0/Obligations.lean ====
section
/-! DEFINITION. The statements for the provers. Where a statement names `agenda`, `port`, `busData`, `drawCount` or `frameCount`
it says what the model's own fields do (log 2, 5, 12, 13, 15); and where it says what a model fault leaves unchanged it says the
model's choice (log 6, 7). The rest is the spec's. -/

open Sys2Proof Sys2Proof.Machine Sys2Proof.Safety

/-! ### Encoding -/

/-- 30_encoding R57, R65: every command word is read back as the command it stands for, whatever its operands. -/
def Obligations.DecodeOfEncode : Prop :=
  ∀ i : Instr, i.wellFormed = true → decode (encode i) = .instr i

/-- 30_encoding R57, R62: each word has at most one meaning, and every bit of it is read. -/
def Obligations.EncodeOfDecode : Prop :=
  ∀ (c : Word) (i : Instr), decode c = .instr i → encode i = c ∧ i.wellFormed = true

/-- 30_encoding R60: the decoder agrees with the masks and patterns of the dispatch, and rejects every other word. -/
def Obligations.DecodeAgreesWithMasks : Prop :=
  ∀ c : Word,
    (c &&& 0xFFFFFF00 = 0x01000000 → decode c = .instr (.decodeColor (formatOfTag (c.extractLsb' 0 8)))) ∧
    (c = 0x02000000 → decode c = .instr .decodeDepth) ∧
    (c &&& 0xFFFFFF00 = 0x10000000 → decode c = .instr (.subscribe (c.extractLsb' 0 8))) ∧
    (c &&& 0xFFFF0000 = 0x11000000 → decode c = .instr (.unsubscribe (c.extractLsb' 0 16))) ∧
    (c &&& 0xFFFFFF00 ≠ 0x01000000 → c ≠ 0x02000000 → c &&& 0xFFFFFF00 ≠ 0x10000000 →
      c &&& 0xFFFF0000 ≠ 0x11000000 → ∃ why, decode c = .reject why)

/-- 30_encoding R65, 95_test_vectors L2.1: words written out from the spec's encodings. -/
def Obligations.SpecWordsDecode : Prop :=
  decode 0x01000000 = .instr (.decodeColor .packedBgr32) ∧ decode 0x01000001 = .instr (.decodeColor .uyvy) ∧
    decode 0x010000FF = .instr (.decodeColor (.unrecognized 255)) ∧ decode 0x02000000 = .instr .decodeDepth ∧
    decode 0x10000003 = .instr (.subscribe 3) ∧ decode 0x1100FFFF = .instr (.unsubscribe 65535) ∧
    decode 0x01800000 = .reject (.reservedFieldNonzero 1) ∧ decode 0x12000000 = .reject (.reservedOpcode 0x12)

/-! ### Dispatch -/

/-- 30_encoding R60: a CMD write of a command's word runs that command at the unit written to; the step adds the agenda's moving
on and the port. -/
def Obligations.StepRunsDecodedCommand : Prop :=
  ∀ (s : State) (u : UnitId) (c : Word) (i : Instr) (rest : List Event),
    FaultFree s → s.agenda = commandEvent u c :: rest → decode c = .instr i →
      step s = exec i { s with agenda := rest, port := u }

/-- 30_encoding R60, whole: the dispatch of any word written to either CMD register, in one step; and which commands leave
IDLE. That a busy unit's fault changes nothing but the fault set is the model's choice (log 6). -/
def Obligations.CmdWriteDispatch : Prop :=
  ∀ (s : State) (u : UnitId) (c : Word) (rest : List Event),
    FaultFree s → s.agenda = commandEvent u c :: rest →
      ∃ t, step s = .next t ∧
        t = (if (s.unit u).phase ≠ .idle then recordFault (.concurrentCommand u c) { s with agenda := rest, port := u }
          else if c &&& 0xFFFFFF00 = 0x01000000 ∧ u = .cu then
            colorAcceptStep (formatOfTag (c.extractLsb' 0 8)) { s with agenda := rest, port := u }
          else if c = 0x02000000 ∧ u = .du then depthAcceptStep { s with agenda := rest, port := u }
          else if c &&& 0xFFFFFF00 = 0x10000000 then
            { s with agenda := rest, port := u }.modifyUnit u (subscribeUnit s.params (c.extractLsb' 0 8))
          else if c &&& 0xFFFF0000 = 0x11000000 then
            { s with agenda := rest, port := u }.modifyUnit u (unsubscribeUnit (c.extractLsb' 0 16))
          else raiseStatus .illegalCommand { s with agenda := rest, port := u }) ∧
        ((s.unit u).phase = .idle → (t.unit u).phase ≠ .idle →
          (u = .cu ∧ c &&& 0xFFFFFF00 = 0x01000000 ∧ colorReject s.params s.cu (formatOfTag (c.extractLsb' 0 8)) = none) ∨
          (u = .du ∧ c = 0x02000000 ∧ frameReject s.params s.du false depthBpp = none))

/-- 30_encoding R62: each way a word can be illegal, and that IllegalCommand is then all that happens to the block. -/
def Obligations.IllegalCommandWords : Prop :=
  ∀ (s : State) (u : UnitId) (c : Word) (rest : List Event),
    FaultFree s → s.agenda = commandEvent u c :: rest → (s.unit u).phase = .idle →
    ((c.extractLsb' 24 8 ≠ (0x01 : Byte) ∧ c.extractLsb' 24 8 ≠ (0x02 : Byte) ∧ c.extractLsb' 24 8 ≠ (0x10 : Byte) ∧
        c.extractLsb' 24 8 ≠ (0x11 : Byte)) ∨
      ((c.extractLsb' 24 8 = (0x01 : Byte) ∨ c.extractLsb' 24 8 = (0x10 : Byte)) ∧ c.extractLsb' 8 16 ≠ (0 : Half)) ∨
      (c.extractLsb' 24 8 = (0x02 : Byte) ∧ c.extractLsb' 0 24 ≠ (0 : BitVec 24)) ∨
      (c.extractLsb' 24 8 = (0x11 : Byte) ∧ c.extractLsb' 16 8 ≠ (0 : Byte)) ∨
      (c.extractLsb' 24 8 = (0x01 : Byte) ∧ u = .du) ∨ (c.extractLsb' 24 8 = (0x02 : Byte) ∧ u = .cu)) →
      step s = .next ({ s with agenda := rest, port := u }.modifyUnit u fun U => { U with lastStatus := .illegalCommand })

/-- 70_reset_and_hazards R120: any word, legal or not, to a busy unit is the fault ConcurrentCommand; a word to an idle unit
records nothing, whatever the other unit does. That nothing else of the block changes with the fault is the model's choice
(log 6). -/
def Obligations.ConcurrentCommandFault : Prop :=
  ∀ (s : State) (u : UnitId) (c : Word) (rest : List Event),
    FaultFree s → s.agenda = commandEvent u c :: rest →
      ((s.unit u).phase ≠ .idle →
        step s = .next { s with agenda := rest, port := u, faults := [.concurrentCommand u c] }) ∧
      ((s.unit u).phase = .idle → ∃ t, step s = .next t ∧ t.faults = [])

/-! ### DECODE_COLOR -/

/-- 40_color_decode R68, whole: the checks in their order, each with its status and nothing else, and the writes of an accepted
frame. `frameCount` is the model's own. -/
def Obligations.DecodeColorAcceptStep : Prop :=
  ∀ (s : State) (fmt : PixelFormat) (w h : Half), s.port = .cu → s.cu.phase = .idle → s.cu.frameDim = h ++ w →
    exec (.decodeColor fmt) s = .next
      (if fmt ≠ .packedBgr32 ∧ fmt ≠ .uyvy then { s with cu := { s.cu with lastStatus := .unsupportedFormat } }
      else if w.toNat = 0 ∨ h.toNat = 0 ∨ w.toNat > s.params.maxW ∨ h.toNat > s.params.maxH then
        { s with cu := { s.cu with lastStatus := .invalidGeometry } }
      else if fmt = .uyvy ∧ w.toNat % 2 = 1 then { s with cu := { s.cu with lastStatus := .invalidGeometry } }
      else if s.cu.srcAddr.toNat + w.toNat * h.toNat * (if fmt = .packedBgr32 then 4 else 2) - 1 > 0xFFFFFFFF then
        { s with cu := { s.cu with lastStatus := .sourceRange } }
      else if s.cu.allocW ≠ 0 ∧ (s.cu.allocW, s.cu.allocH) ≠ (w, h) then
        { s with cu := { s.cu with lastStatus := .dimensionMismatch } }
      else
        { s with
          cu := { s.cu with
            allocW := w, allocH := h, phase := .write
            lat := { op := .color, fmt := fmt, src := s.cu.srcAddr, w := w, h := h } }
          cuScratch := if fmt = .uyvy ∧ s.cuScratch = none then some (w.toNat * h.toNat) else s.cuScratch
          frameCount := s.frameCount + 1 })

/-- 40_color_decode R68, 41_depth_decode R80, 60_exceptions R107: what neither DECODE changes, accepted or not, on an idle unit:
the other unit, source memory, faults, the raster's bytes, the subscriptions, RESULT, FAIL_HANDLE, the operand registers and the
pending event; and what a DECODE that is not accepted changes (LAST_STATUS only). -/
def Obligations.DecodeFrame : Prop :=
  ∀ (i : Instr) (s t : State), (i = .decodeDepth ∨ ∃ fmt, i = .decodeColor fmt) → (s.unit s.port).phase = .idle →
    exec i s = .next t →
      (∀ v, v ≠ s.port → t.unit v = s.unit v) ∧
      (t.unit s.port).raster = (s.unit s.port).raster ∧ (t.unit s.port).subs = (s.unit s.port).subs ∧
      (t.unit s.port).nextHandle = (s.unit s.port).nextHandle ∧ (t.unit s.port).nidx = (s.unit s.port).nidx ∧
      (t.unit s.port).pend = (s.unit s.port).pend ∧ (t.unit s.port).result = (s.unit s.port).result ∧
      (t.unit s.port).failHandle = (s.unit s.port).failHandle ∧ (t.unit s.port).srcAddr = (s.unit s.port).srcAddr ∧
      (t.unit s.port).frameDim = (s.unit s.port).frameDim ∧
      (∀ a, Memory.read t.srcMem a = Memory.read s.srcMem a) ∧ t.srcMem = s.srcMem ∧ t.faults = s.faults ∧
      t.params = s.params ∧ t.port = s.port ∧ t.agenda = s.agenda ∧ t.busData = s.busData ∧ t.drawCount = s.drawCount ∧
      ((t.unit s.port).phase = .write → (t.unit s.port).lastStatus = (s.unit s.port).lastStatus) ∧
      ((t.unit s.port).phase ≠ .write →
        t = s.modifyUnit s.port fun U => { U with lastStatus := (t.unit s.port).lastStatus })

/-- 40_color_decode R69: the write step of the CU stores the whole frame, pixel by pixel (packed, R70) or group by group (UYVY,
R72), and enters NOTIFY with nidx 0. -/
def Obligations.CuWriteStep : Prop :=
  ∀ (s : State) (rest : List Event),
    FaultFree s → s.agenda = .unitTurn .cu :: rest → s.cu.phase = .write →
      ∃ new, step s = .next { s with agenda := rest, cu := { s.cu with raster := new, nidx := 0, phase := .notify } } ∧
        (s.cu.lat.fmt = .packedBgr32 →
          new.length = 4 * (s.cu.lat.w.toNat * s.cu.lat.h.toNat) ∧
          ∀ p k, p < s.cu.lat.w.toNat * s.cu.lat.h.toNat → k < 4 →
            new[4 * p + k]? = some (Memory.read s.srcMem (s.cu.lat.src.toNat + 4 * p + k))) ∧
        (s.cu.lat.fmt = .uyvy →
          new.length = 8 * ((s.cu.lat.w.toNat * s.cu.lat.h.toNat) / 2) ∧
          ∀ g k, g < (s.cu.lat.w.toNat * s.cu.lat.h.toNat) / 2 → k < 8 →
            new[8 * g + k]? =
              (uyvyGroup s.params.cscNumerics s.frameCount s.srcMem s.cu.lat.src.toNat g)[k]?)

/-- 40_color_decode R72: byte order U, Y0, V, Y1; both pixels share U and V; alpha is 0xFF. -/
def Obligations.UyvyGroupSharesChroma : Prop :=
  ∀ (numerics : Config.CscNumerics) (frame src g : Nat) (m : Memory) (bU bY0 bV bY1 : Byte),
    Memory.read m (src + 4 * g + 0) = bU → Memory.read m (src + 4 * g + 1) = bY0 →
    Memory.read m (src + 4 * g + 2) = bV → Memory.read m (src + 4 * g + 3) = bY1 →
      uyvyGroup numerics frame m src g =
        [channelByte numerics (Config.cscDraw frame (2 * g) 0) (numeratorB bY0 bU),
         channelByte numerics (Config.cscDraw frame (2 * g) 1) (numeratorG bY0 bU bV),
         channelByte numerics (Config.cscDraw frame (2 * g) 2) (numeratorR bY0 bV), 0xFF,
         channelByte numerics (Config.cscDraw frame (2 * g + 1) 0) (numeratorB bY1 bU),
         channelByte numerics (Config.cscDraw frame (2 * g + 1) 1) (numeratorG bY1 bU bV),
         channelByte numerics (Config.cscDraw frame (2 * g + 1) 2) (numeratorR bY1 bV), 0xFF]

/-- 40_color_decode R73 under EXACT: each numerator is 1000 times the document's expression, and each channel is that real
expression, floored and clamped, as a byte. -/
def Obligations.CscIsTheRealFormula : Prop :=
  ∀ (frame pixel : Nat) (y u v : Byte),
    ((numeratorB y u : ℚ) = 1000 * ((1.164 : ℚ) * (y.toNat - 16) + 2.018 * (u.toNat - 128)) ∧
      (numeratorG y u v : ℚ) = 1000 * ((1.164 : ℚ) * (y.toNat - 16) - 0.813 * (v.toNat - 128) - 0.391 * (u.toNat - 128)) ∧
      (numeratorR y v : ℚ) = 1000 * ((1.164 : ℚ) * (y.toNat - 16) + 1.596 * (v.toNat - 128))) ∧
    (cscPixel .exact frame pixel y u v).map (fun b => (b.toNat : Int)) =
      [max 0 (min ⌊(1.164 : ℚ) * (y.toNat - 16) + 2.018 * (u.toNat - 128)⌋ 255),
       max 0 (min ⌊(1.164 : ℚ) * (y.toNat - 16) - 0.813 * (v.toNat - 128) - 0.391 * (u.toNat - 128)⌋ 255),
       max 0 (min ⌊(1.164 : ℚ) * (y.toNat - 16) + 1.596 * (v.toNat - 128)⌋ 255), 255]

/-- 40_color_decode R74: clamping before or after flooring, or after truncating toward zero, is the same for every real. -/
def Obligations.ClampAndTruncateCommute : Prop :=
  ∀ x : ℝ, clamp255 ⌊x⌋ = ⌊max 0 (min x 255)⌋ ∧ clamp255 ⌊x⌋ = clamp255 (if 0 ≤ x then ⌊x⌋ else ⌈x⌉) ∧
    (x < 0 → clamp255 ⌊x⌋ = 0) ∧ (0 ≤ x → x ≤ 255 → clamp255 ⌊x⌋ = ⌊x⌋) ∧ (255 < x → clamp255 ⌊x⌋ = 255)

/-- 40_color_decode R76: the numerator ranges, each end attained, inside a signed 21-bit accumulator. -/
def Obligations.NumeratorRanges : Prop :=
  (∀ y u v : Byte,
    (-276928 ≤ numeratorB y u ∧ numeratorB y u ≤ 534482) ∧ (-171532 ≤ numeratorG y u v ∧ numeratorG y u v ≤ 432308) ∧
    (-222912 ≤ numeratorR y v ∧ numeratorR y v ≤ 480888)) ∧
  (∃ y u, numeratorB y u = -276928) ∧ (∃ y u, numeratorB y u = 534482) ∧ (∃ y u v, numeratorG y u v = -171532) ∧
  (∃ y u v, numeratorG y u v = 432308) ∧ (∃ y v, numeratorR y v = -222912) ∧ (∃ y v, numeratorR y v = 480888) ∧
  (-(2 : Int) ^ 20 ≤ -276928 ∧ (534482 : Int) < 2 ^ 20) ∧
  ∀ numerics low n, ((channelByte numerics low n).toNat : Int) = channelValue numerics low n

/-- 40_color_decode R77, its five properties, under either CSC_NUMERICS and whatever the draws. -/
def Obligations.CscProperties : Prop :=
  ∀ (numerics : Config.CscNumerics) (f p : Nat) (low low' : Bool),
    (∀ n, 0 ≤ channelValue numerics low n ∧ channelValue numerics low n ≤ 255) ∧
    cscPixel numerics f p 16 128 128 = [0, 0, 0, 255] ∧
    cscPixel numerics f p 235 128 128 = [254, 254, 254, 255] ∧
    (∀ y u v v', (cscPixel numerics f p y u v)[0]? = (cscPixel numerics f p y u v')[0]?) ∧
    (∀ y u u' v, (cscPixel numerics f p y u v)[2]? = (cscPixel numerics f p y u' v)[2]?) ∧
    (∀ y, (cscPixel numerics f p y 128 128)[0]? = (cscPixel numerics f p y 128 128)[1]? ∧
      (cscPixel numerics f p y 128 128)[1]? = (cscPixel numerics f p y 128 128)[2]? ∧
      (cscPixel numerics f p y 128 128)[0]? = some (channelByte numerics low (1164 * ((y.toNat : Int) - 16)))) ∧
    (∀ y y' : Byte, y.toNat ≤ y'.toNat →
      channelValue numerics low (1164 * ((y.toNat : Int) - 16)) ≤ channelValue numerics low' (1164 * ((y'.toNat : Int) - 16))) ∧
    (∀ y : Byte, y.toNat ≤ 16 → channelValue numerics low (1164 * ((y.toNat : Int) - 16)) = 0) ∧
    (∀ y : Byte, 236 ≤ y.toNat → channelValue numerics low (1164 * ((y.toNat : Int) - 16)) = 255)

/-- 40_color_decode R75: BOUNDARY_EITHER differs from EXACT at a boundary point only, and there by exactly one. -/
def Obligations.BoundaryEitherDiffersByOne : Prop :=
  ∀ n : Int,
    (n % 1000 = 0 → 1000 ≤ n → n ≤ 255000 →
      channelValue .boundaryEither false n = n / 1000 ∧ channelValue .boundaryEither true n = n / 1000 - 1 ∧
      channelExact n = n / 1000) ∧
    (¬(n % 1000 = 0 ∧ 1000 ≤ n ∧ n ≤ 255000) → ∀ low, channelValue .boundaryEither low n = channelExact n) ∧
    ∀ low, channelValue .exact low n = channelExact n

/-! ### DECODE_DEPTH -/

/-- 41_depth_decode R80, whole: the checks in their order, each with its status and nothing else, and the writes of an accepted
frame. -/
def Obligations.DecodeDepthAcceptStep : Prop :=
  ∀ (s : State) (w h : Half), s.port = .du → s.du.phase = .idle → s.du.frameDim = h ++ w →
    exec .decodeDepth s = .next
      (if w.toNat = 0 ∨ h.toNat = 0 ∨ w.toNat > s.params.maxW ∨ h.toNat > s.params.maxH then
        { s with du := { s.du with lastStatus := .invalidGeometry } }
      else if s.du.srcAddr.toNat + 2 * w.toNat * h.toNat - 1 > 0xFFFFFFFF then
        { s with du := { s.du with lastStatus := .sourceRange } }
      else if s.du.allocW ≠ 0 ∧ (s.du.allocW, s.du.allocH) ≠ (w, h) then
        { s with du := { s.du with lastStatus := .dimensionMismatch } }
      else
        { s with
          du := { s.du with
            allocW := w, allocH := h, phase := .write
            lat := { op := .depth, fmt := .packedBgr32, src := s.du.srcAddr, w := w, h := h } } })

/-- 41_depth_decode R81: the write step of the DU stores every sample's pixel and enters NOTIFY with nidx 0. -/
def Obligations.DuWriteStep : Prop :=
  ∀ (s : State) (rest : List Event),
    FaultFree s → s.agenda = .unitTurn .du :: rest → s.du.phase = .write →
      ∃ new, step s = .next { s with agenda := rest, du := { s.du with raster := new, nidx := 0, phase := .notify } } ∧
        new.length = 4 * (s.du.lat.w.toNat * s.du.lat.h.toNat) ∧
        ∀ i k, i < s.du.lat.w.toNat * s.du.lat.h.toNat → k < 4 →
          new[4 * i + k]? =
            (depthPixel (Memory.read s.srcMem (s.du.lat.src.toNat + 2 * i + 1) ++
              Memory.read s.srcMem (s.du.lat.src.toNat + 2 * i)))[k]?

/-- 41_depth_decode R82 to R88: a sample's pixel, from its tag `s % 8` and its unsigned distance `s / 8`. -/
def Obligations.DepthPixelByPalette : Prop :=
  ∀ sample : Half, ∃ i hf : Nat,
    i = 255 - (255 * (sample.toNat / 8)) / 8191 ∧ hf = i / 2 ∧ i ≤ 255 ∧ hf ≤ 127 ∧
    (depthPixel sample).map BitVec.toNat =
      (if sample.toNat % 8 = 0 then [hf, hf, hf, 255]
      else if sample.toNat % 8 = 1 then [0, 0, i, 255]
      else if sample.toNat % 8 = 2 then [0, i, 0, 255]
      else if sample.toNat % 8 = 3 then [i, 0, 0, 255]
      else if sample.toNat % 8 = 4 then [0, i, i, 255]
      else if sample.toNat % 8 = 5 then [i, 0, i, 255]
      else if sample.toNat % 8 = 6 then [i, i, 0, 255]
      else [i, i, i, 255])

/-- 41_depth_decode R89, its five properties. -/
def Obligations.IntensityProperties : Prop :=
  (∀ d d', d ≤ d' → d' ≤ 8191 → intensity d' ≤ intensity d) ∧
  (∀ d, d ≤ 8191 → (intensity d = 255 ↔ d ≤ 32) ∧ (intensity d = 0 ↔ d = 8191)) ∧
  (∀ i, palette 0 i = (i / 2, i / 2, i / 2) ∧ palette 1 i = (i, 0, 0) ∧ palette 2 i = (0, i, 0) ∧ palette 3 i = (0, 0, i) ∧
    palette 4 i = (i, i, 0) ∧ palette 5 i = (i, 0, i) ∧ palette 6 i = (0, i, i) ∧ palette 7 i = (i, i, i)) ∧
  (∀ sample : Half, sample.toNat % 8 = 0 → ∀ k b, k < 3 → (depthPixel sample)[k]? = some b → b.toNat ≤ 127) ∧
  (∀ sample : Half, 0xFFF8 ≤ sample.toNat → depthPixel sample = [0, 0, 0, 0xFF])

/-! ### Subscriptions -/

/-- 42_notifier R91: on an idle unit, each rejection in its order, and the new entry. On a busy unit it is the model fault, and
that nothing else changes with it is the model's choice (log 6). -/
def Obligations.SubscribeResult : Prop :=
  ∀ (s : State) (sink : Byte),
    ((s.unit s.port).phase ≠ .idle →
      exec (.subscribe sink) s = .next (recordFault (.concurrentCommand s.port (0x10000000 + sink.setWidth 32)) s)) ∧
    ((s.unit s.port).phase = .idle →
      exec (.subscribe sink) s = .next
        (s.modifyUnit s.port fun U =>
          if sink.toNat ≥ s.params.sinkCount then { U with result := 0, lastStatus := .invalidSink }
          else if U.subs.length = s.params.subMax then { U with result := 0, lastStatus := .subscriberTableFull }
          else if U.nextHandle = 65536 then { U with result := 0, lastStatus := .handleExhausted }
          else
            { U with
              nextHandle := U.nextHandle + 1
              subs := U.subs ++ [{ handle := BitVec.ofNat 16 U.nextHandle, sink := sink }]
              result := BitVec.ofNat 16 U.nextHandle
              lastStatus := .ok }))

/-- 42_notifier R92: on an idle unit, a handle that is 0 or not in the table is NoSuchSubscriber; the entry of a handle in the
table is removed and the others keep their order. -/
def Obligations.UnsubscribeResult : Prop :=
  ∀ (s : State) (handle : Half), (s.unit s.port).phase = .idle →
    ((handle = 0 ∨ ∀ e ∈ (s.unit s.port).subs, e.handle ≠ handle) →
      exec (.unsubscribe handle) s = .next (s.modifyUnit s.port fun U => { U with lastStatus := .noSuchSubscriber })) ∧
    (∀ before after sink, handle ≠ 0 → (s.unit s.port).subs = before ++ { handle := handle, sink := sink } :: after →
      (∀ e ∈ before ++ after, e.handle ≠ handle) →
        exec (.unsubscribe handle) s =
          .next (s.modifyUnit s.port fun U => { U with subs := before ++ after, lastStatus := .ok }))

/-- 42_notifier R91, R92, 60_exceptions R107: what neither SUBSCRIBE nor UNSUBSCRIBE changes on an idle unit; UNSUBSCRIBE also
leaves RESULT and next_handle. -/
def Obligations.SubscriptionFrame : Prop :=
  ∀ (i : Instr) (s t : State), ((∃ k, i = .subscribe k) ∨ ∃ h, i = .unsubscribe h) → (s.unit s.port).phase = .idle →
    exec i s = .next t →
      (∀ v, v ≠ s.port → t.unit v = s.unit v) ∧
      (t.unit s.port).phase = .idle ∧ (t.unit s.port).nidx = (s.unit s.port).nidx ∧
      (t.unit s.port).lat = (s.unit s.port).lat ∧ (t.unit s.port).allocW = (s.unit s.port).allocW ∧
      (t.unit s.port).allocH = (s.unit s.port).allocH ∧ (t.unit s.port).raster = (s.unit s.port).raster ∧
      (t.unit s.port).pend = (s.unit s.port).pend ∧ (t.unit s.port).failHandle = (s.unit s.port).failHandle ∧
      (t.unit s.port).srcAddr = (s.unit s.port).srcAddr ∧ (t.unit s.port).frameDim = (s.unit s.port).frameDim ∧
      (∀ a, Memory.read t.srcMem a = Memory.read s.srcMem a) ∧ t.srcMem = s.srcMem ∧ t.faults = s.faults ∧
      t.params = s.params ∧ t.cuScratch = s.cuScratch ∧ t.port = s.port ∧ t.agenda = s.agenda ∧ t.busData = s.busData ∧
      t.drawCount = s.drawCount ∧ t.frameCount = s.frameCount ∧
      ((∃ h, i = .unsubscribe h) →
        (t.unit s.port).result = (s.unit s.port).result ∧ (t.unit s.port).nextHandle = (s.unit s.port).nextHandle)

/-- 42_notifier R91: handles rise by 1 and are never reused before reset: in any step but RST, next_handle never falls, and an
entry that was not in the table has the old next_handle, which is then one more. In a state of the invariant the handle is
next_handle itself and not only its low 16 bits: it is above every handle in the table, and it is not 0. -/
def Obligations.HandlesNeverReused : Prop :=
  ∀ (s t : State) (u : UnitId), step s = .next t → s.agenda.head? ≠ some .reset →
    (s.unit u).nextHandle ≤ (t.unit u).nextHandle ∧
    ∀ e ∈ (t.unit u).subs, e ∈ (s.unit u).subs ∨
      (e.handle = BitVec.ofNat 16 (s.unit u).nextHandle ∧ (t.unit u).nextHandle = (s.unit u).nextHandle + 1 ∧
        (Inv s → e.handle.toNat = (s.unit u).nextHandle ∧ e.handle ≠ 0 ∧
          ∀ old ∈ (s.unit u).subs, old.handle.toNat < e.handle.toNat))

/-! ### The NOTIFY phase -/

/-- 42_notifier R94, R95: the deliver step makes the entry at nidx pending, PENDING shows it, and its sink's line is asserted. -/
def Obligations.DeliverStep : Prop :=
  ∀ (s : State) (u : UnitId) (e : Subscription) (rest : List Event),
    FaultFree s → s.agenda = .unitTurn u :: rest → (s.unit u).phase = .notify → (s.unit u).pend = none →
    (s.unit u).subs[(s.unit u).nidx]? = some e →
      ∃ t, step s = .next t ∧ t = { s with agenda := rest }.modifyUnit u (fun U => { U with pend := some e }) ∧
        (pendingRegister (t.unit u)).toNat = 2 ^ 31 + e.sink.toNat * 2 ^ 16 + e.handle.toNat ∧
        changedLine t e.sink.toNat = true

/-- 42_notifier R98: the complete step. -/
def Obligations.CompleteStep : Prop :=
  ∀ (s : State) (u : UnitId) (rest : List Event),
    FaultFree s → s.agenda = .unitTurn u :: rest → (s.unit u).phase = .notify → (s.unit u).pend = none →
    (s.unit u).nidx = (s.unit u).subs.length →
      step s = .next ({ s with agenda := rest }.modifyUnit u fun U => { U with lastStatus := .ok, phase := .idle })

/-- 42_notifier R96: an ACK whose CODE is 1, whatever its other bits, while an event is pending. -/
def Obligations.AckOfOk : Prop :=
  ∀ (s : State) (u : UnitId) (v : Word) (e : Subscription) (rest : List Event),
    FaultFree s → s.agenda = ackEvent u v :: rest → v.toNat % 4 = 1 → (s.unit u).pend = some e →
      step s = .next ({ s with agenda := rest }.modifyUnit u fun U => { U with pend := none, nidx := U.nidx + 1 })

/-- 42_notifier R97: an ACK whose CODE is 2, while an event is pending, ends the DECODE; the raster, the table and everything else
stay. -/
def Obligations.AckOfFail : Prop :=
  ∀ (s : State) (u : UnitId) (v : Word) (e : Subscription) (rest : List Event),
    FaultFree s → s.agenda = ackEvent u v :: rest → v.toNat % 4 = 2 → (s.unit u).pend = some e →
      step s = .next ({ s with agenda := rest }.modifyUnit u fun U =>
        { U with pend := none, failHandle := e.handle, lastStatus := .subscriberFailure, phase := .idle })

/-- 42_notifier R99: an ACK with nothing pending, or with CODE 0 or 3, has no effect. -/
def Obligations.AckIgnored : Prop :=
  ∀ (s : State) (u : UnitId) (v : Word) (rest : List Event),
    FaultFree s → s.agenda = ackEvent u v :: rest →
    ((s.unit u).pend = none ∨ v.toNat % 4 = 0 ∨ v.toNat % 4 = 3) → step s = .next { s with agenda := rest }

/-- 60_exceptions R115, 70_reset_and_hazards R124: a turn of an IDLE unit, or of one whose event waits for its ACK, changes
nothing. That such a turn may stand in the agenda is the model's form (log 2, log 16). -/
def Obligations.TurnWithoutEnabledStep : Prop :=
  ∀ (s : State) (u : UnitId) (rest : List Event),
    FaultFree s → s.agenda = .unitTurn u :: rest →
    ((s.unit u).phase = .idle ∨ ((s.unit u).phase = .notify ∧ ∃ e, (s.unit u).pend = some e)) →
      step s = .next { s with agenda := rest }

/-- 42_notifier R100: the level of each CHANGED line. -/
def Obligations.ChangedLineLevel : Prop :=
  ∀ (s : State) (k : Nat), k < s.params.sinkCount →
    (changedLine s k = true ↔
      (∃ e, s.cu.pend = some e ∧ e.sink.toNat = k) ∨ ∃ e, s.du.pend = some e ∧ e.sink.toNat = k)

/-- 42_notifier R101, first half: with every event acknowledged OK, the NOTIFY phase ends by the complete step, with status OK, the
raster kept, having emitted one event to every subscription, in order. -/
def Obligations.NotifyRoundCompletes : Prop :=
  ∀ (s : State) (u : UnitId) (rest : List Event),
    FaultFree s → (s.unit u).phase = .notify → (s.unit u).pend = none → (s.unit u).nidx = 0 →
    s.agenda = okRounds u (s.unit u).subs.length ++ .unitTurn u :: rest →
      (∃ t : State, Host.Core.run Sys2Proof.core (2 * (s.unit u).subs.length + 1) s = .next t ∧ (t.unit u).phase = .idle ∧
        (t.unit u).lastStatus = .ok ∧ (t.unit u).pend = none ∧ (t.unit u).raster = (s.unit u).raster ∧
        (t.unit u).subs = (s.unit u).subs ∧ t.agenda = rest ∧ FaultFree t) ∧
      changedEvents u (2 * (s.unit u).subs.length + 1) s = (s.unit u).subs

/-- 42_notifier R97, R101, second half: after `k` events acknowledged OK, a FAIL ends the DECODE with SubscriberFailure and
FAIL_HANDLE; the first k + 1 entries have had one event each, in order, and the later ones none. -/
def Obligations.NotifyRoundFails : Prop :=
  ∀ (s : State) (u : UnitId) (k : Nat) (e : Subscription) (v : Word) (rest : List Event),
    FaultFree s → (s.unit u).phase = .notify → (s.unit u).pend = none → (s.unit u).nidx = 0 →
    (s.unit u).subs[k]? = some e → v.toNat % 4 = 2 →
    s.agenda = okRounds u k ++ .unitTurn u :: ackEvent u v :: rest →
      (∃ t : State, Host.Core.run Sys2Proof.core (2 * k + 2) s = .next t ∧ (t.unit u).phase = .idle ∧
        (t.unit u).lastStatus = .subscriberFailure ∧ (t.unit u).failHandle = e.handle ∧ (t.unit u).pend = none ∧
        (t.unit u).raster = (s.unit u).raster ∧ (t.unit u).subs = (s.unit u).subs ∧ t.agenda = rest ∧ FaultFree t) ∧
      changedEvents u (2 * k + 2) s = (s.unit u).subs.take (k + 1)

/-- 20_memory R51, 42_notifier R101: a DECODE from its CMD write to IDLE: accepted, the whole frame written before the first
event, every subscription notified once, and status OK. -/
def Obligations.DecodeRunsToCompletion : Prop :=
  ∀ (s t : State) (u : UnitId) (i : Instr) (rest : List Event),
    Inv s → FaultFree s → (s.unit u).phase = .idle → i.wellFormed = true →
    s.agenda = commandEvent u (encode i) :: .unitTurn u :: (okRounds u (s.unit u).subs.length ++ .unitTurn u :: rest) →
    step s = .next t → (t.unit u).phase = .write →
      (∃ z : State, Host.Core.run Sys2Proof.core (2 * (s.unit u).subs.length + 3) s = .next z ∧ (z.unit u).phase = .idle ∧
        (z.unit u).lastStatus = .ok ∧ (z.unit u).raster = newFrame t u ∧ (newFrame t u).length = liveBytes (t.unit u) ∧
        (z.unit u).allocW = frameW (s.unit u) ∧ (z.unit u).allocH = frameH (s.unit u) ∧ z.agenda = rest ∧ FaultFree z) ∧
      changedEvents u (2 * (s.unit u).subs.length + 3) s = (s.unit u).subs

/-! ### BUS -/

/-- 20_memory R43, R44: a BUS access is misused exactly when it is misaligned or is a narrow access inside a register window; it
then records BusMisuse. R43 says of a misaligned access that it has no effect; that a narrow one has no other effect either is
the model's choice (log 6, log 18). -/
def Obligations.BusMisuseRecorded : Prop :=
  ∀ (s : State) (a : BusAddr) (n : Width) (e : Event) (rest : List Event),
    FaultFree s → s.agenda = e :: rest → (e = .busRead a n ∨ ∃ v, e = .busWrite a n v) →
      ((a.toNat % n.bytes ≠ 0 ∨ (n ≠ .word ∧ a.toNat < 0x200)) →
        step s = .next { s with agenda := rest, faults := [.busMisuse a n] }) ∧
      (a.toNat % n.bytes = 0 → (n = .word ∨ 0x200 ≤ a.toNat) → ∃ t, step s = .next t ∧ .busMisuse a n ∉ t.faults)

/-- 10_state R17 to R27, 60_exceptions R102: what a 4-byte read of each register of a unit gives its host; in STATUS, the value of
each of the twelve codes. -/
def Obligations.RegisterReadValues : Prop :=
  ∀ (s : State) (u : UnitId) (off : Nat) (rest : List Event),
    FaultFree s → off % 4 = 0 → off < 0x100 →
    s.agenda = .busRead (BitVec.ofNat 24 (windowBase u + off)) .word :: rest →
      ∃ t, step s = .next t ∧ t = { s with agenda := rest, busData := t.busData } ∧
        (off = 0x04 → ∃ code : Nat,
          ((s.unit u).lastStatus, code) ∈
            [(Status.noneYet, 0x00), (.ok, 0x01), (.unsupportedFormat, 0x10), (.dimensionMismatch, 0x11),
              (.subscriberFailure, 0x12), (.invalidGeometry, 0x20), (.sourceRange, 0x21), (.illegalCommand, 0x30),
              (.subscriberTableFull, 0x40), (.handleExhausted, 0x41), (.invalidSink, 0x42), (.noSuchSubscriber, 0x43)] ∧
          t.busData.toNat =
            (if (s.unit u).phase ≠ .idle then 1 else 0) + (if (s.unit u).phase = .notify then 2 else 0) +
            (if (s.unit u).allocW ≠ 0 then 4 else 0) + code * 2 ^ 8) ∧
        (off = 0x08 → t.busData = (s.unit u).srcAddr) ∧ (off = 0x0C → t.busData = (s.unit u).frameDim) ∧
        (off = 0x10 → t.busData.toNat = (s.unit u).result.toNat) ∧
        (off = 0x14 → t.busData.toNat = (s.unit u).allocW.toNat + (s.unit u).allocH.toNat * 2 ^ 16) ∧
        (off = 0x18 → (s.unit u).subs.length ≤ 255 → t.busData.toNat = (s.unit u).subs.length) ∧
        (off = 0x1C → t.busData.toNat = (s.unit u).failHandle.toNat) ∧
        (off = 0x20 → (s.unit u).pend = none → t.busData.toNat = 0) ∧
        (∀ e, off = 0x20 → (s.unit u).pend = some e →
          t.busData.toNat = e.handle.toNat + e.sink.toNat * 2 ^ 16 + 2 ^ 31) ∧
        ((off = 0x00 ∨ off = 0x24 ∨ 0x28 ≤ off) → t.busData.toNat = 0)

/-- 10_state R18 to R27, 70_reset_and_hazards R126: a 4-byte write to SRC_ADDR or FRAME_DIM is stored as written, busy or not, and
changes nothing else (the latch in particular); a write to any other register but CMD and ACK is ignored. -/
def Obligations.RegisterWrites : Prop :=
  ∀ (s : State) (u : UnitId) (off : Nat) (v : Word) (rest : List Event),
    FaultFree s → off % 4 = 0 → off < 0x100 → off ≠ 0x00 → off ≠ 0x24 →
    s.agenda = .busWrite (BitVec.ofNat 24 (windowBase u + off)) .word v :: rest →
      step s = .next
        (if off = 0x08 then { s with agenda := rest }.modifyUnit u fun U => { U with srcAddr := v }
        else if off = 0x0C then { s with agenda := rest }.modifyUnit u fun U => { U with frameDim := v }
        else { s with agenda := rest })

/-- 20_memory R42, R45: aligned accesses outside the register windows: writes are ignored, and a read of an unmapped address gives
0. -/
def Obligations.UnmappedAndRasterWrites : Prop :=
  ∀ (s : State) (a : BusAddr) (n : Width) (rest : List Event),
    FaultFree s → a.toNat % n.bytes = 0 → 0x200 ≤ a.toNat →
      (∀ v, s.agenda = .busWrite a n v :: rest → step s = .next { s with agenda := rest }) ∧
      (s.agenda = .busRead a n :: rest → (a.toNat < 0x400000 ∨ 0x800000 ≤ a.toNat) →
        step s = .next { s with agenda := rest, busData := 0 })

/-- 20_memory R45, R49: an aligned raster read outside the WRITE phase gives the raster's bytes, byte `off + k` in bits
[8k+7:8k], and 0 for bytes that are not live. -/
def Obligations.RasterReadBytes : Prop :=
  ∀ (s : State) (u : UnitId) (off : Nat) (n : Width) (rest : List Event),
    Inv s → FaultFree s → (s.unit u).phase ≠ .write → off % n.bytes = 0 → off < 2 ^ 21 →
    s.agenda = .busRead (BitVec.ofNat 24 (rasterBase u + off)) n :: rest →
      ∃ v : Word, step s = .next { s with agenda := rest, busData := v } ∧
        ∀ k, k < 4 → v.toNat / 2 ^ (8 * k) % 256 =
          if k < n.bytes then
            (if (s.unit u).allocW ≠ 0 ∧ off + k < 4 * (s.unit u).allocW.toNat * (s.unit u).allocH.toNat then
              ((s.unit u).raster.getD (off + k) 0).toNat
            else 0)
          else 0

/-- 20_memory R45, R48, R49: an aligned raster read of any width during the WRITE phase, under either RACE_READ, the first WRITE
phase after reset included: it answers with byte `off + k` in bits [8k+7:8k], it changes nothing of the block, and each byte past
the live region is 0. Under OLD_OR_NEW, where the raster has been written before, each live byte is the old byte or the new one;
in the other cases a live byte may be any. The draws are free values (log 10, log 13). -/
def Obligations.RacingReadOldOrNew : Prop :=
  ∀ (s : State) (u : UnitId) (off : Nat) (n : Width) (rest : List Event),
    Inv s → FaultFree s → (s.unit u).phase = .write → off % n.bytes = 0 → off < 2 ^ 21 →
    s.agenda = .busRead (BitVec.ofNat 24 (rasterBase u + off)) n :: rest →
      ∃ v : Word, step s = .next { s with agenda := rest, busData := v, drawCount := s.drawCount + 1 } ∧
        ∀ k, k < 4 → ∃ b : Byte, v.toNat / 2 ^ (8 * k) % 256 = b.toNat ∧
          (¬(k < n.bytes ∧ off + k < liveBytes (s.unit u)) → b = 0) ∧
          (k < n.bytes → off + k < liveBytes (s.unit u) → s.params.raceRead = .oldOrNew → (s.unit u).raster ≠ [] →
            some b = (s.unit u).raster[off + k]? ∨ some b = (newFrame s u)[off + k]?)

/-- 20_memory R47: no BUS read has a side effect on the block: only `busData` and `drawCount` change, which are the model's own
(log 13, log 15). -/
def Obligations.ReadsHaveNoSideEffect : Prop :=
  ∀ (s : State) (a : BusAddr) (n : Width) (rest : List Event),
    FaultFree s → misused a n = false → s.agenda = .busRead a n :: rest →
      ∃ t, step s = .next t ∧ t = { s with agenda := rest, busData := t.busData, drawCount := t.drawCount }

/-- 20_memory R47: a read of any place but the raster window of a unit in WRITE gives the same data when it is repeated. -/
def Obligations.RepeatedReadSameData : Prop :=
  ∀ (s : State) (a : BusAddr) (n : Width) (rest : List Event),
    FaultFree s → misused a n = false → (∀ u off, placeAt a = .raster u off → (s.unit u).phase ≠ .write) →
    s.agenda = .busRead a n :: .busRead a n :: rest →
      ∃ t, step s = .next t ∧ step t = .next { t with agenda := rest }

/-! ### Source memory -/

/-- 70_reset_and_hazards R122, 60_exceptions R104, 30_encoding R65: a host MemWrite of 1 or 2 bytes with none in a busy unit's
latched range stores them, low byte first, and changes nothing else, wherever it ends in the source space; one with a byte in
such a range, 0xFFFF_FFFF included, records SourceModified for that unit and address, and no other fault. That the units and the
memory are then unchanged is the model's choice (log 6, log 7). -/
def Obligations.HostMemWrite : Prop :=
  ∀ (s : State) (e : Event) (a : Word) (bytes : List Nat) (rest : List Event),
    Inv s → FaultFree s → MemWriteOf e a bytes → s.agenda = e :: rest →
      ((∀ u k, k < bytes.length → ¬InBusyRange s u (a.toNat + k)) → a.toNat + bytes.length ≤ 2 ^ 32 →
        ∃ t, step s = .next t ∧ t = { s with agenda := rest, srcMem := t.srcMem } ∧
          (∀ k, k < bytes.length → bytes[k]? = some (Memory.read t.srcMem (a.toNat + k)).toNat) ∧
          ∀ b, (b < a.toNat ∨ a.toNat + bytes.length ≤ b) → Memory.read t.srcMem b = Memory.read s.srcMem b) ∧
      (∀ u k, k < bytes.length → InBusyRange s u (a.toNat + k) →
        ∃ t, step s = .next t ∧ t = { s with agenda := rest, faults := t.faults } ∧
          .sourceModified u (BitVec.ofNat 32 (a.toNat + k)) ∈ t.faults ∧
          ∀ f ∈ t.faults, ∃ v j, j < bytes.length ∧ InBusyRange s v (a.toNat + j) ∧
            f = .sourceModified v (BitVec.ofNat 32 (a.toNat + j)))

/-- 20_memory R40, 00_scope R11: only a host's MemWrite changes source memory. -/
def Obligations.OnlyHostsWriteSource : Prop :=
  ∀ s t : State, step s = .next t →
    (∀ a v, s.agenda.head? ≠ some (.memWrite8 a v)) → (∀ a v, s.agenda.head? ≠ some (.memWrite16 a v)) →
      t.srcMem = s.srcMem

/-! ### Faults and reset -/

/-- 10_state R37: Faults is empty at the start of a run, stays a set, and no step removes an element, reset included; no BUS read
depends on it. -/
def Obligations.FaultsNeverRemoved : Prop :=
  State.reset.faults = [] ∧
  (∀ s t : State, step s = .next t → (∀ f ∈ s.faults, f ∈ t.faults) ∧ (s.faults.Nodup → t.faults.Nodup)) ∧
  ∀ (s : State) (fs : List ModelFault) (n : Width) (p : Place), readPlace { s with faults := fs } n p = readPlace s n p

/-- 60_exceptions R104, 93_implementation_defined row 16: once Faults is not empty, every event but RST is refused by name
(log 6). -/
def Obligations.FaultedRunRefused : Prop :=
  ∀ (s : State) (f : ModelFault) (fs : List ModelFault), s.faults = f :: fs → s.agenda.head? ≠ some .reset →
    step s = .refused (.faultedRun f)

/-- The model's choice (log 6, log 9): a step stops only in a run that has faulted, and at a 2-byte MemWrite that would pass the
end of the source space and whose first byte is in no busy unit's range. -/
def Obligations.StepStopsOnlyThere : Prop :=
  ∀ s : State,
    (∃ t, step s = .next t) ↔
      ((s.faults = [] ∧ ∀ v, s.agenda.head? = some (.memWrite16 0xFFFFFFFF v) → ∃ u, InBusyRange s u 0xFFFFFFFF) ∨
        s.agenda.head? = some .reset)

/-- 10_state R18 to R25, R38: the values the spec gives every field after reset. -/
def Obligations.ResetValues : Prop :=
  ∀ u : UnitId, ∃ U, U = State.reset.unit u ∧ U.phase = .idle ∧ U.nidx = 0 ∧ U.allocW = 0 ∧ U.allocH = 0 ∧ U.subs = [] ∧
    U.nextHandle = 1 ∧ U.pend = none ∧ U.lastStatus = .noneYet ∧ U.lastStatus.code = 0x00 ∧ U.result = 0 ∧ U.failHandle = 0 ∧
    U.srcAddr = 0 ∧ U.frameDim = 0 ∧ State.reset.cuScratch = none

/-- 70_reset_and_hazards R117: RST, in any state, busy or faulted: both units as after reset, every register reads 0, no line is
asserted, no raster is allocated; source memory and Faults are unchanged. -/
def Obligations.ResetEvent : Prop :=
  ∀ (s : State) (rest : List Event), s.agenda = .reset :: rest →
    ∃ t, step s = .next t ∧ t.srcMem = s.srcMem ∧ t.faults = s.faults ∧ t.cuScratch = none ∧ t.agenda = rest ∧
      t.params = s.params ∧ (∀ k, changedLine t k = false) ∧
      ∀ u, (t.unit u).phase = .idle ∧ (t.unit u).pend = none ∧ (t.unit u).subs = [] ∧ (t.unit u).nextHandle = 1 ∧
        (t.unit u).nidx = 0 ∧ (t.unit u).lastStatus = .noneYet ∧ (t.unit u).allocW = 0 ∧ (t.unit u).allocH = 0 ∧
        (∀ r, readRegister (t.unit u) r = 0) ∧ (∀ off, windowByte t u off = 0)

/-! ### Invariants and whole-machine rules -/

/-- The invariant holds after reset. -/
def Obligations.InvariantAtReset : Prop := Inv State.reset

/-- Every step of every agent keeps the invariant (10_state R16, R29, R31 to R33, R36, R37, 20_memory R40). -/
def Obligations.StepKeepsInvariant : Prop :=
  ∀ s t : State, Inv s → step s = .next t → Inv t

/-- 10_state R16: a unit's phase changes by the listed transitions only, each taken by what the table names. -/
def Obligations.PhaseTransitionsLegal : Prop :=
  ∀ (s t : State) (u : UnitId), Inv s → step s = .next t → PhaseChange u s (s.unit u).phase (t.unit u).phase

/-- 10_state R32: RASTER_DIM, once set, changes only at reset, and it is set by an accepted DECODE to that frame's (w, h). -/
def Obligations.RasterDimensionsFixed : Prop :=
  ∀ (s t : State) (u : UnitId), step s = .next t → s.agenda.head? ≠ some .reset →
    ((s.unit u).allocW ≠ 0 → (t.unit u).allocW = (s.unit u).allocW ∧ (t.unit u).allocH = (s.unit u).allocH) ∧
    (((t.unit u).allocW, (t.unit u).allocH) ≠ ((s.unit u).allocW, (s.unit u).allocH) →
      (s.unit u).phase = .idle ∧ (t.unit u).phase = .write ∧ (t.unit u).allocW = frameW (s.unit u) ∧
      (t.unit u).allocH = frameH (s.unit u))

/-- 20_memory R51: a raster's bytes change only at that unit's write step, to NEW, and at reset. -/
def Obligations.RasterChangesOnlyAtWriteStep : Prop :=
  ∀ (s t : State) (u : UnitId), step s = .next t → (t.unit u).raster ≠ (s.unit u).raster →
    s.agenda.head? = some .reset ∨
      (UnitTurn u s ∧ (s.unit u).phase = .write ∧ (t.unit u).phase = .notify ∧ (t.unit u).raster = newFrame s u)

/-- 10_state R18, R33: while a unit stays busy, LAST_STATUS, RESULT and the latch keep their values. -/
def Obligations.BusyKeepsStatusAndLatch : Prop :=
  ∀ (s t : State) (u : UnitId), step s = .next t → (s.unit u).phase ≠ .idle → (t.unit u).phase ≠ .idle →
    (t.unit u).lastStatus = (s.unit u).lastStatus ∧ (t.unit u).result = (s.unit u).result ∧
    (t.unit u).lat = (s.unit u).lat ∧ (t.unit u).subs = (s.unit u).subs

/-- 10_state R14, 60_exceptions R113: the units share no state: what an event does to one unit does not depend on the other. -/
def Obligations.UnitsIndependent : Prop :=
  ∀ (s t s' t' : State) (u : UnitId) (e : Event) (rest rest' : List Event),
    FaultFree s → FaultFree t → s.agenda = e :: rest → t.agenda = e :: rest' → s.unit u = t.unit u → s.params = t.params →
    s.srcMem = t.srcMem → s.frameCount = t.frameCount → step s = .next s' → step t = .next t' →
      s'.unit u = t'.unit u

/-- 70_reset_and_hazards R129, R124: with no event outstanding, in four steps every unit has taken its enabled steps: each is IDLE
or waits for a sink's ACK. That an empty agenda lets the units run on is the model's choice (log 2, log 3). -/
def Obligations.UnitsRunOn : Prop :=
  ∀ s : State, Inv s → FaultFree s → s.agenda = [] →
    ∃ t : State, Host.Core.run Sys2Proof.core 4 s = .next t ∧
      ∀ u, (t.unit u).phase = .idle ∨ ((t.unit u).phase = .notify ∧ ∃ e, (t.unit u).pend = some e)

/-- 20_memory R42, 10_state R31: in every state that meets the invariant, every live raster byte fits its 2 MiB window, and its BUS
address is mapped to it. -/
def Obligations.LiveBytesFitWindow : Prop :=
  ∀ (s : State) (u : UnitId) (off : Nat), Inv s → off < liveBytes (s.unit u) →
    liveBytes (s.unit u) ≤ 2 ^ 21 ∧ placeAt (BitVec.ofNat 24 (rasterBase u + off)) = .raster u off
end

