-- ==== Sys2Proof/Laws/Decode.lean ====
section
/-! SUPPORT. The columns of a packed command word, and the word of its columns. -/

namespace Sys2Proof

@[simp] theorem opField_pack (a b c d : Byte) : opField (packFields a b c d) = a := by
  simp only [opField, packFields, BitVec.extractLsb'_append_eq_of_le (show 24 ≤ 24 by omega)]
  exact BitVec.extractLsb'_eq_self

@[simp] theorem upperField_pack (a b c d : Byte) : upperField (packFields a b c d) = b := by
  unfold upperField packFields
  rw [BitVec.extractLsb'_append_eq_of_add_le (by omega), BitVec.extractLsb'_append_eq_of_le (by omega)]
  exact BitVec.extractLsb'_eq_self

@[simp] theorem middleField_pack (a b c d : Byte) : middleField (packFields a b c d) = c := by
  unfold middleField packFields
  rw [BitVec.extractLsb'_append_eq_of_add_le (by omega), BitVec.extractLsb'_append_eq_of_add_le (by omega),
    BitVec.extractLsb'_append_eq_of_le (by omega)]
  exact BitVec.extractLsb'_eq_self

@[simp] theorem lowField_pack (a b c d : Byte) : lowField (packFields a b c d) = d := by
  unfold lowField packFields
  rw [BitVec.extractLsb'_append_eq_of_add_le (by omega), BitVec.extractLsb'_append_eq_of_add_le (by omega),
    BitVec.extractLsb'_append_eq_of_add_le (by omega)]
  exact BitVec.extractLsb'_eq_self

@[simp] theorem handleField_pack (a b c d : Byte) : handleField (packFields a b c d) = c ++ d := by
  unfold handleField packFields
  rw [BitVec.extractLsb'_append_eq_of_add_le (by omega), BitVec.extractLsb'_append_eq_of_add_le (by omega)]
  exact BitVec.extractLsb'_eq_self

theorem toNat_append_add {m n : Nat} (a : BitVec m) (b : BitVec n) : (a ++ b).toNat = a.toNat * 2 ^ n + b.toNat := by
  rw [BitVec.toNat_append, ← Nat.shiftLeft_add_eq_or_of_lt b.isLt, Nat.shiftLeft_eq]

theorem packFields_toNat (a b c d : Byte) :
    (packFields a b c d).toNat = a.toNat * 2 ^ 24 + b.toNat * 2 ^ 16 + c.toNat * 2 ^ 8 + d.toNat := by
  simp only [packFields, toNat_append_add]
  omega

/-- A word is what its four columns pack to (30_encoding R57). -/
theorem packFields_columns (c : Word) : packFields (opField c) (upperField c) (middleField c) (lowField c) = c := by
  apply BitVec.eq_of_toNat_eq
  have := c.isLt
  simp only [packFields_toNat, opField, upperField, middleField, lowField, BitVec.extractLsb'_toNat]
  omega

/-- A handle is its two columns (30_encoding R57). -/
theorem handle_columns (h : Half) : h.extractLsb' 8 8 ++ h.extractLsb' 0 8 = h := by
  apply BitVec.eq_of_toNat_eq
  have := h.isLt
  simp only [toNat_append_add, BitVec.extractLsb'_toNat]
  omega

theorem handleField_columns (c : Word) : handleField c = middleField c ++ lowField c := by
  rw [← packFields_columns c]; simp

theorem tagOfFormat_formatOfTag (tag : Byte) : tagOfFormat (formatOfTag tag) = tag := by
  unfold formatOfTag
  split
  · simp [tagOfFormat, *]
  · split <;> simp [tagOfFormat, *]

theorem formatOfTag_wellFormed (tag : Byte) : (formatOfTag tag).wellFormed = true := by
  unfold formatOfTag
  split
  · rfl
  · split
    · rfl
    · rename_i h0 h1
      simp only [PixelFormat.wellFormed, decide_eq_true_eq]
      have : tag.toNat ≠ 0 := fun h => h0 (BitVec.eq_of_toNat_eq h)
      have : tag.toNat ≠ 1 := fun h => h1 (BitVec.eq_of_toNat_eq h)
      omega

theorem formatOfTag_tagOfFormat {f : PixelFormat} (h : f.wellFormed = true) : formatOfTag (tagOfFormat f) = f := by
  cases f with
  | packedBgr32 => rfl
  | uyvy => rfl
  | unrecognized tag =>
    simp only [PixelFormat.wellFormed, decide_eq_true_eq] at h
    have h0 : tag ≠ 0 := by rintro rfl; simp at h
    have h1 : tag ≠ 1 := by rintro rfl; simp at h
    rw [tagOfFormat, formatOfTag, if_neg h0, if_neg h1]

end Sys2Proof
end

