-- ==== Sys2Proof/Laws/State.lean ====
section
/-! SUPPORT. What each update of State and of a unit leaves unchanged, one lemma a field: `modifyUnit`, `raiseStatus`,
`recordFault`, `recordFaults`, `resetBlock`. -/

namespace Sys2Proof.Machine

@[simp] theorem unit_cu (s : State) : s.unit .cu = s.cu := rfl
@[simp] theorem unit_du (s : State) : s.unit .du = s.du := rfl

/-- A state that differs outside the units has the same units. -/
@[simp] theorem unit_mk (s : State) (p : Config.Params) (sc : Option Nat) (m : Memory) (f : List ModelFault) (po : UnitId)
    (a : List Event) (b : Word) (d fc : Nat) (u : UnitId) :
    State.unit (State.mk p s.cu s.du sc m f po a b d fc) u = s.unit u := by cases u <;> rfl

/-! ### modifyUnit -/

@[simp] theorem modifyUnit_unit (s : State) (u : UnitId) (f : UnitState → UnitState) :
    (s.modifyUnit u f).unit u = f (s.unit u) := by cases u <;> rfl

theorem modifyUnit_unit_other (s : State) {u v : UnitId} (f : UnitState → UnitState) (h : v ≠ u) :
    (s.modifyUnit u f).unit v = s.unit v := by cases u <;> cases v <;> first | rfl | exact absurd rfl h

@[simp] theorem modifyUnit_cu (s : State) (f : UnitState → UnitState) : s.modifyUnit .cu f = { s with cu := f s.cu } := rfl
@[simp] theorem modifyUnit_du (s : State) (f : UnitState → UnitState) : s.modifyUnit .du f = { s with du := f s.du } := rfl
@[simp] theorem modifyUnit_params (s : State) (u : UnitId) (f : UnitState → UnitState) :
    (s.modifyUnit u f).params = s.params := by cases u <;> rfl
@[simp] theorem modifyUnit_cuScratch (s : State) (u : UnitId) (f : UnitState → UnitState) :
    (s.modifyUnit u f).cuScratch = s.cuScratch := by cases u <;> rfl
@[simp] theorem modifyUnit_srcMem (s : State) (u : UnitId) (f : UnitState → UnitState) :
    (s.modifyUnit u f).srcMem = s.srcMem := by cases u <;> rfl
@[simp] theorem modifyUnit_faults (s : State) (u : UnitId) (f : UnitState → UnitState) :
    (s.modifyUnit u f).faults = s.faults := by cases u <;> rfl
@[simp] theorem modifyUnit_port (s : State) (u : UnitId) (f : UnitState → UnitState) :
    (s.modifyUnit u f).port = s.port := by cases u <;> rfl
@[simp] theorem modifyUnit_agenda (s : State) (u : UnitId) (f : UnitState → UnitState) :
    (s.modifyUnit u f).agenda = s.agenda := by cases u <;> rfl
@[simp] theorem modifyUnit_busData (s : State) (u : UnitId) (f : UnitState → UnitState) :
    (s.modifyUnit u f).busData = s.busData := by cases u <;> rfl
@[simp] theorem modifyUnit_drawCount (s : State) (u : UnitId) (f : UnitState → UnitState) :
    (s.modifyUnit u f).drawCount = s.drawCount := by cases u <;> rfl
@[simp] theorem modifyUnit_frameCount (s : State) (u : UnitId) (f : UnitState → UnitState) :
    (s.modifyUnit u f).frameCount = s.frameCount := by cases u <;> rfl

/-! ### raiseStatus -/

@[simp] theorem raiseStatus_unit_port (code : Status) (s : State) :
    (raiseStatus code s).unit s.port = { s.unit s.port with lastStatus := code } := by simp [raiseStatus]
@[simp] theorem raiseStatus_params (code : Status) (s : State) : (raiseStatus code s).params = s.params := by simp [raiseStatus]
@[simp] theorem raiseStatus_cuScratch (code : Status) (s : State) : (raiseStatus code s).cuScratch = s.cuScratch := by
  simp [raiseStatus]
@[simp] theorem raiseStatus_srcMem (code : Status) (s : State) : (raiseStatus code s).srcMem = s.srcMem := by simp [raiseStatus]
@[simp] theorem raiseStatus_faults (code : Status) (s : State) : (raiseStatus code s).faults = s.faults := by simp [raiseStatus]
@[simp] theorem raiseStatus_port (code : Status) (s : State) : (raiseStatus code s).port = s.port := by simp [raiseStatus]
@[simp] theorem raiseStatus_agenda (code : Status) (s : State) : (raiseStatus code s).agenda = s.agenda := by simp [raiseStatus]
@[simp] theorem raiseStatus_busData (code : Status) (s : State) : (raiseStatus code s).busData = s.busData := by
  simp [raiseStatus]
@[simp] theorem raiseStatus_drawCount (code : Status) (s : State) : (raiseStatus code s).drawCount = s.drawCount := by
  simp [raiseStatus]
@[simp] theorem raiseStatus_frameCount (code : Status) (s : State) : (raiseStatus code s).frameCount = s.frameCount := by
  simp [raiseStatus]

/-! ### recordFault: the fault set is the only field it touches -/

theorem recordFault_eq (f : ModelFault) (s : State) :
    recordFault f s = { s with faults := if f ∈ s.faults then s.faults else s.faults ++ [f] } := by
  unfold recordFault; split <;> rfl

theorem mem_recordFault (f : ModelFault) (s : State) : f ∈ (recordFault f s).faults := by
  rw [recordFault_eq]; by_cases h : f ∈ s.faults <;> simp [h]

theorem recordFault_keeps {f g : ModelFault} {s : State} (h : g ∈ s.faults) : g ∈ (recordFault f s).faults := by
  rw [recordFault_eq]; by_cases hf : f ∈ s.faults <;> simp [hf, h]

theorem recordFault_nodup {f : ModelFault} {s : State} (h : s.faults.Nodup) : (recordFault f s).faults.Nodup := by
  rw [recordFault_eq]; by_cases hf : f ∈ s.faults
  · simpa [hf] using h
  · simp only [hf, if_false]
    exact List.nodup_append.2 ⟨h, by simp, by rintro a ha b hb rfl; simp at hb; exact hf (hb ▸ ha)⟩

@[simp] theorem recordFault_unit (f : ModelFault) (s : State) (u : UnitId) : (recordFault f s).unit u = s.unit u := by
  rw [recordFault_eq]; cases u <;> rfl
@[simp] theorem recordFault_cu (f : ModelFault) (s : State) : (recordFault f s).cu = s.cu := by rw [recordFault_eq]
@[simp] theorem recordFault_du (f : ModelFault) (s : State) : (recordFault f s).du = s.du := by rw [recordFault_eq]
@[simp] theorem recordFault_params (f : ModelFault) (s : State) : (recordFault f s).params = s.params := by
  rw [recordFault_eq]
@[simp] theorem recordFault_cuScratch (f : ModelFault) (s : State) : (recordFault f s).cuScratch = s.cuScratch := by
  rw [recordFault_eq]
@[simp] theorem recordFault_srcMem (f : ModelFault) (s : State) : (recordFault f s).srcMem = s.srcMem := by
  rw [recordFault_eq]
@[simp] theorem recordFault_port (f : ModelFault) (s : State) : (recordFault f s).port = s.port := by rw [recordFault_eq]
@[simp] theorem recordFault_agenda (f : ModelFault) (s : State) : (recordFault f s).agenda = s.agenda := by
  rw [recordFault_eq]
@[simp] theorem recordFault_busData (f : ModelFault) (s : State) : (recordFault f s).busData = s.busData := by
  rw [recordFault_eq]
@[simp] theorem recordFault_drawCount (f : ModelFault) (s : State) : (recordFault f s).drawCount = s.drawCount := by
  rw [recordFault_eq]
@[simp] theorem recordFault_frameCount (f : ModelFault) (s : State) : (recordFault f s).frameCount = s.frameCount := by
  rw [recordFault_eq]

/-- Recording faults changes the fault set only, and only by adding to it. -/
theorem recordFaults_eq (fs : List ModelFault) (s : State) :
    ∃ l, recordFaults fs s = { s with faults := l } ∧ (∀ g ∈ s.faults, g ∈ l) ∧ (∀ g ∈ fs, g ∈ l) ∧
      (∀ g ∈ l, g ∈ s.faults ∨ g ∈ fs) ∧ (s.faults.Nodup → l.Nodup) := by
  induction fs generalizing s with
  | nil => exact ⟨s.faults, rfl, by simp, by simp, by simp, id⟩
  | cons f fs ih =>
    obtain ⟨l, heq, hold, hnew, hall, hnd⟩ := ih (recordFault f s)
    refine ⟨l, ?_, fun g hg => hold g (recordFault_keeps hg), ?_, ?_, fun h => hnd (recordFault_nodup h)⟩
    · rw [recordFaults, heq, recordFault_eq]
    · intro g hg
      rcases List.mem_cons.1 hg with rfl | hg
      · exact hold _ (mem_recordFault _ _)
      · exact hnew g hg
    · intro g hg
      rcases hall g hg with h | h
      · rw [recordFault_eq] at h
        by_cases hf : f ∈ s.faults
        · simp [hf] at h; exact .inl h
        · simp [hf] at h; rcases h with h | rfl
          · exact .inl h
          · simp
      · simp [h]

/-! ### issue -/

theorem issue_idle {s : State} (c : Word) (k : State → State) (h : (s.unit s.port).phase = .idle) : issue c k s = k s := by
  simp [issue, h]

theorem issue_busy {s : State} (c : Word) (k : State → State) (h : (s.unit s.port).phase ≠ .idle) :
    issue c k s = recordFault (.concurrentCommand s.port c) s := by simp [issue, h]

end Sys2Proof.Machine
end

