-- ==== Sys2Proof/Laws/Exec.lean ====
section
/-! SUPPORT. What exec answers: on a busy unit always the fault, on an idle unit the command's own step. -/

namespace Sys2Proof.Machine

/-- Every command to a busy unit is the fault ConcurrentCommand (30_encoding R60). -/
theorem exec_busy (i : Instr) {s : State} (h : (s.unit s.port).phase ≠ .idle) :
    exec i s = .next (recordFault (.concurrentCommand s.port (encode i)) s) := by
  cases i <;> simp only [exec, execDecodeColor, execDecodeDepth, execSubscribe, execUnsubscribe, issue_busy _ _ h]

theorem exec_decodeColor_idle (fmt : PixelFormat) {s : State} (h : (s.unit s.port).phase = .idle) :
    exec (.decodeColor fmt) s =
      .next (if s.port = .cu then colorAcceptStep fmt s else raiseStatus .illegalCommand s) := by
  simp only [exec, execDecodeColor, issue_idle _ _ h]

theorem exec_decodeDepth_idle {s : State} (h : (s.unit s.port).phase = .idle) :
    exec .decodeDepth s = .next (if s.port = .du then depthAcceptStep s else raiseStatus .illegalCommand s) := by
  simp only [exec, execDecodeDepth, issue_idle _ _ h]

theorem exec_subscribe_idle (sink : Byte) {s : State} (h : (s.unit s.port).phase = .idle) :
    exec (.subscribe sink) s = .next (s.modifyUnit s.port (subscribeUnit s.params sink)) := by
  simp only [exec, execSubscribe, issue_idle _ _ h]

theorem exec_unsubscribe_idle (handle : Half) {s : State} (h : (s.unit s.port).phase = .idle) :
    exec (.unsubscribe handle) s = .next (s.modifyUnit s.port (unsubscribeUnit handle)) := by
  simp only [exec, execUnsubscribe, issue_idle _ _ h]

/-! ### The accept steps -/

/-- An accept step rejects with a status or accepts; nothing else (40_color_decode R68). -/
theorem colorAcceptStep_cases (fmt : PixelFormat) (s : State) :
    (∃ code, colorReject s.params s.cu fmt = some code ∧ colorAcceptStep fmt s = raiseStatus code s) ∨
      (colorReject s.params s.cu fmt = none ∧ colorAcceptStep fmt s = acceptColor fmt s) := by
  unfold colorAcceptStep
  cases h : colorReject s.params s.cu fmt with
  | some code => exact .inl ⟨code, rfl, rfl⟩
  | none => exact .inr ⟨rfl, rfl⟩

/-- 41_depth_decode R80. -/
theorem depthAcceptStep_cases (s : State) :
    (∃ code, frameReject s.params s.du false depthBpp = some code ∧ depthAcceptStep s = raiseStatus code s) ∨
      (frameReject s.params s.du false depthBpp = none ∧ depthAcceptStep s = acceptDepth s) := by
  unfold depthAcceptStep
  cases h : frameReject s.params s.du false depthBpp with
  | some code => exact .inl ⟨code, rfl, rfl⟩
  | none => exact .inr ⟨rfl, rfl⟩

/-- What a frame that passes the checks is known to satisfy. -/
theorem frameReject_none {P : Config.Params} {U : UnitState} {pairs : Bool} {bpp : Nat} (h : frameReject P U pairs bpp = none) :
    (frameW U).toNat ≠ 0 ∧ (frameH U).toNat ≠ 0 ∧ (frameW U).toNat ≤ P.maxW ∧ (frameH U).toNat ≤ P.maxH ∧
      (pairs = true → (frameW U).toNat % 2 = 0) ∧
      U.srcAddr.toNat + (frameW U).toNat * (frameH U).toNat * bpp - 1 ≤ 0xFFFFFFFF ∧
      (U.allocW = 0 ∨ (U.allocW = frameW U ∧ U.allocH = frameH U)) := by
  unfold frameReject at h
  split at h
  · cases h
  split at h
  · cases h
  split at h
  · cases h
  split at h
  · cases h
  rename_i h1 h2 h3 h4
  push Not at h1 h2 h4
  refine ⟨h1.1, h1.2.1, h1.2.2.1, h1.2.2.2, fun hp => ?_, by omega, ?_⟩
  · have := h2 hp; omega
  · by_cases h0 : U.allocW = 0
    · exact .inl h0
    · exact .inr (h4 h0)

/-- An accepted frame's dimensions are the raster's, first frame or not (10_state R32). -/
theorem latchDecode_alloc {P : Config.Params} {U : UnitState} {pairs : Bool} {bpp : Nat} (op : DecodeOp) (fmt : PixelFormat)
    (h : frameReject P U pairs bpp = none) :
    (latchDecode op fmt U).allocW = frameW U ∧ (latchDecode op fmt U).allocH = frameH U := by
  obtain ⟨-, -, -, -, -, -, h0 | ⟨hw, hh⟩⟩ := frameReject_none h
  · simp [latchDecode, h0]
  · simp only [latchDecode]
    by_cases h0 : U.allocW = 0
    · simp [h0]
    · simp [← hw, ← hh]

end Sys2Proof.Machine
end

