-- ==== Sys2Proof/Laws/Memory.lean ====
section
/-! SUPPORT. The laws of source memory: a read after a write, and that every write keeps the canonical form. -/

namespace Sys2Proof.Machine

theorem read_write_same (m : Memory) (k : Nat) (v : Byte) (h : Memory.wf m) : Memory.read (Memory.write m k v) k = v := by
  obtain ⟨hp, -⟩ := h
  induction m with
  | nil => by_cases hv : v = unlistedByte <;> simp [Memory.write, Memory.read, hv]
  | cons c rest ih =>
    obtain ⟨a, b⟩ := c
    obtain ⟨hlt, hrest⟩ := List.pairwise_cons.1 hp
    have hread : ∀ l : Memory, (∀ x ∈ l, k < x.1) → Memory.read l k = unlistedByte := by
      intro l hl
      induction l with
      | nil => rfl
      | cons d l ihl =>
        have hd := hl d (by simp)
        simp only [Memory.read]
        rw [if_neg (by omega)]
        exact ihl fun x hx => hl x (by simp [hx])
    by_cases h1 : k < a
    · by_cases hv : v = unlistedByte
      · simp only [Memory.write, h1, hv, if_true]
        exact hread _ fun x hx => by
          rcases List.mem_cons.1 hx with rfl | hx
          · exact h1
          · exact Nat.lt_trans h1 (hlt x hx)
      · simp [Memory.write, h1, hv, Memory.read]
    · by_cases h2 : k = a
      · subst h2
        by_cases hv : v = unlistedByte
        · simp only [Memory.write, Nat.lt_irrefl, if_false, hv, if_true]
          exact hread _ fun x hx => hlt x hx
        · simp [Memory.write, hv, Memory.read]
      · simp only [Memory.write, h1, h2, if_false, Memory.read]
        rw [if_neg (fun e => h2 e.symm)]
        exact ih hrest

theorem read_write_other (m : Memory) {k j : Nat} (v : Byte) (h : j ≠ k) :
    Memory.read (Memory.write m k v) j = Memory.read m j := by
  induction m with
  | nil =>
    by_cases hv : v = unlistedByte
    · simp [Memory.write, hv]
    · simp [Memory.write, hv, Memory.read, Ne.symm h]
  | cons c rest ih =>
    obtain ⟨a, b⟩ := c
    by_cases h1 : k < a
    · by_cases hv : v = unlistedByte
      · simp [Memory.write, h1, hv]
      · simp only [Memory.write, h1, hv, if_true, if_false, Memory.read]
        rw [if_neg (Ne.symm h)]
    · by_cases h2 : k = a
      · subst h2
        by_cases hv : v = unlistedByte
        · simp [Memory.write, hv, Memory.read, Ne.symm h]
        · simp [Memory.write, hv, Memory.read, Ne.symm h]
      · simp only [Memory.write, h1, h2, if_false, Memory.read, ih]

theorem mem_write {m : Memory} {k : Nat} {v : Byte} {c : Host.Cell} (h : c ∈ Memory.write m k v) :
    c ∈ m ∨ (c = (k, v) ∧ v ≠ unlistedByte) := by
  induction m with
  | nil =>
    by_cases hv : v = unlistedByte
    · simp [Memory.write, hv] at h
    · simp [Memory.write, hv] at h; exact .inr ⟨h, hv⟩
  | cons d rest ih =>
    obtain ⟨a, b⟩ := d
    by_cases h1 : k < a
    · by_cases hv : v = unlistedByte
      · simp only [Memory.write, h1, hv, if_true] at h
        exact .inl h
      · simp only [Memory.write, h1, hv, if_true, if_false] at h
        rcases List.mem_cons.1 h with h | h
        · exact .inr ⟨h, hv⟩
        · exact .inl h
    · by_cases h2 : k = a
      · subst h2
        by_cases hv : v = unlistedByte
        · simp only [Memory.write, Nat.lt_irrefl, if_false, hv, if_true] at h
          exact .inl (List.mem_cons_of_mem _ h)
        · simp only [Memory.write, Nat.lt_irrefl, if_false, hv, if_true] at h
          rcases List.mem_cons.1 h with h | h
          · exact .inr ⟨h, hv⟩
          · exact .inl (List.mem_cons_of_mem _ h)
      · simp only [Memory.write, h1, h2, if_false] at h
        rcases List.mem_cons.1 h with h | h
        · exact .inl (h ▸ List.mem_cons_self)
        · exact (ih h).imp (List.mem_cons_of_mem _) id

theorem write_wf {m : Memory} {k : Nat} (v : Byte) (h : Memory.wf m) (hk : k < 2 ^ 32) : Memory.wf (Memory.write m k v) := by
  refine ⟨?_, fun c hc => ?_⟩
  · obtain ⟨hp, -⟩ := h
    induction m with
    | nil => by_cases hv : v = unlistedByte <;> simp [Memory.write, hv]
    | cons d rest ih =>
      obtain ⟨a, b⟩ := d
      obtain ⟨hlt, hrest⟩ := List.pairwise_cons.1 hp
      by_cases h1 : k < a
      · by_cases hv : v = unlistedByte
        · simpa only [Memory.write, h1, hv, if_true] using hp
        · simp only [Memory.write, h1, hv, if_true, if_false]
          refine List.pairwise_cons.2 ⟨fun x hx => ?_, hp⟩
          rcases List.mem_cons.1 hx with rfl | hx
          · exact h1
          · exact Nat.lt_trans h1 (hlt x hx)
      · by_cases h2 : k = a
        · subst h2
          by_cases hv : v = unlistedByte
          · simpa only [Memory.write, Nat.lt_irrefl, if_false, hv, if_true] using hrest
          · simp only [Memory.write, Nat.lt_irrefl, if_false, hv, if_true]
            exact List.pairwise_cons.2 ⟨hlt, hrest⟩
        · simp only [Memory.write, h1, h2, if_false]
          refine List.pairwise_cons.2 ⟨fun x hx => ?_, ih hrest⟩
          rcases mem_write hx with hx | ⟨rfl, -⟩
          · exact hlt x hx
          · exact Nat.lt_of_le_of_ne (Nat.le_of_not_lt h1) (Ne.symm h2)
  · rcases mem_write hc with hc | ⟨rfl, hv⟩
    · exact h.2 c hc
    · exact ⟨hk, hv⟩

theorem writeBytes_wf {m : Memory} {k : Nat} (vs : List Byte) (h : Memory.wf m) (hk : k + vs.length ≤ 2 ^ 32) :
    Memory.wf (Memory.writeBytes m k vs) := by
  induction vs generalizing m k with
  | nil => exact h
  | cons v vs ih =>
    simp only [List.length_cons] at hk
    exact ih (write_wf v h (by omega)) (by omega)

theorem read_writeBytes_other (m : Memory) {k j : Nat} (vs : List Byte) (h : j < k ∨ k + vs.length ≤ j) :
    Memory.read (Memory.writeBytes m k vs) j = Memory.read m j := by
  induction vs generalizing m k with
  | nil => rfl
  | cons v vs ih =>
    simp only [List.length_cons] at h
    rw [Memory.writeBytes, ih _ (by omega), read_write_other m v (by omega)]

theorem read_writeBytes_at (m : Memory) {k i : Nat} (vs : List Byte) (h : Memory.wf m) (hk : k + vs.length ≤ 2 ^ 32)
    (hi : i < vs.length) : Memory.read (Memory.writeBytes m k vs) (k + i) = vs[i] := by
  induction vs generalizing m k i with
  | nil => simp at hi
  | cons v vs ih =>
    simp only [List.length_cons] at hk
    cases i with
    | zero =>
      rw [Memory.writeBytes, read_writeBytes_other _ _ (by omega)]
      exact read_write_same m k v h
    | succ i =>
      simp only [List.length_cons] at hi
      have := ih (Memory.write m k v) (k := k + 1) (i := i) (write_wf v h (by omega)) (by omega) (by omega)
      rw [Memory.writeBytes, show k + (i + 1) = k + 1 + i by omega]
      simpa using this

end Sys2Proof.Machine
end

