-- ==== Sys2Proof/Laws/PerInstr.lean ====
section
/-! SUPPORT. Statements made for every command, one lemma a constructor: the opcode of its word (30_encoding R57, R61). -/

namespace Sys2Proof.Laws.EncodedOpcode

/-- The opcode column of the table of 30_encoding R57. -/
def opcode : Instr → Byte
  | .decodeColor _ => 0x01
  | .decodeDepth => 0x02
  | .subscribe _ => 0x10
  | .unsubscribe _ => 0x11

def Statement (i : Instr) : Prop := opField (encode i) = opcode i ∧ upperField (encode i) = 0

theorem decodeColor (fmt : PixelFormat) : Statement (.decodeColor fmt) := by simp [Statement, encode, opcode]

theorem decodeDepth : Statement .decodeDepth := by simp [Statement, encode, opcode]

theorem subscribe (sink : Byte) : Statement (.subscribe sink) := by simp [Statement, encode, opcode]

theorem unsubscribe (handle : Half) : Statement (.unsubscribe handle) := by simp [Statement, encode, opcode]

end Sys2Proof.Laws.EncodedOpcode
end

