-- ==== Sys2Proof/Laws/Step.lean ====
section
/-! SUPPORT. What a step does with each kind of event, said once: later proofs cite these instead of unfolding `step`. -/

namespace Sys2Proof.Machine

/-! ### The address map -/

theorem misused_cmdAddress (u : UnitId) : misused (cmdAddress u) .word = false := by cases u <;> decide

theorem placeAt_cmdAddress (u : UnitId) : placeAt (cmdAddress u) = .register u .cmd := by
  cases u <;> simp [placeAt, cmdAddress, windowBase, registerAt]

theorem not_misused {a : BusAddr} {n : Width} (h : misused a n = false) :
    a.toNat % n.bytes = 0 ∧ ∀ u r, placeAt a = .register u r → n = .word := by
  rw [misused, Bool.or_eq_false_iff] at h
  refine ⟨by simpa using h.1, fun u r hp => ?_⟩
  have := h.2
  rw [hp] at this
  simpa using this

/-- Only the address of CMD itself is an unmisused 4-byte access of CMD. -/
theorem eq_cmdAddress {a : BusAddr} {u : UnitId} (h : placeAt a = .register u .cmd) (hm : misused a .word = false) :
    a = cmdAddress u := by
  have hal : a.toNat % 4 = 0 := (not_misused hm).1
  have hreg : ∀ off, registerAt off = .cmd → off / 4 = 0 := by
    intro off
    unfold registerAt
    split <;> simp_all
  apply BitVec.eq_of_toNat_eq
  unfold placeAt at h
  split at h
  · simp only [Place.register.injEq] at h
    obtain ⟨rfl, h⟩ := h
    have := hreg _ h
    simp [cmdAddress, windowBase]; omega
  · split at h
    · simp only [Place.register.injEq] at h
      obtain ⟨rfl, h⟩ := h
      have := hreg _ h
      simp [cmdAddress, windowBase]; omega
    · split at h
      · simp at h
      · split at h
        · simp at h
        · split at h <;> simp at h

/-! ### Steps -/

/-- A command at the head of the agenda is decoded at its unit. -/
theorem step_command {s : State} {u : UnitId} {c : Word} {rest : List Event} (hf : s.faults = [])
    (ha : s.agenda = commandEvent u c :: rest) :
    step s = stepCommand c { s with agenda := rest, port := u } := by
  simp [step, nextMove, hf, ha, perform, commandEvent, busWrite, misused_cmdAddress, placeAt_cmdAddress]

theorem step_unitTurn {s : State} {u : UnitId} {rest : List Event} (hf : s.faults = []) (ha : s.agenda = .unitTurn u :: rest) :
    step s = .next (unitStep u { s with agenda := rest }) := by
  simp [step, nextMove, hf, ha, perform]

theorem step_idle {s : State} (hf : s.faults = []) (ha : s.agenda = []) : step s = .next (freeRun s) := by
  simp [step, nextMove, hf, ha]

theorem step_busRead {s : State} {a : BusAddr} {n : Width} {rest : List Event} (hf : s.faults = [])
    (ha : s.agenda = .busRead a n :: rest) : step s = .next (busRead a n { s with agenda := rest }) := by
  simp [step, nextMove, hf, ha, perform]

theorem step_memWrite8 {s : State} {a : Word} {v : Byte} {rest : List Event} (hf : s.faults = [])
    (ha : s.agenda = .memWrite8 a v :: rest) : step s = memWrite a [v] { s with agenda := rest } := by
  simp [step, nextMove, hf, ha, perform]

theorem step_memWrite16 {s : State} {a : Word} {v : Half} {rest : List Event} (hf : s.faults = [])
    (ha : s.agenda = .memWrite16 a v :: rest) :
    step s = memWrite a [v.extractLsb' 0 8, v.extractLsb' 8 8] { s with agenda := rest } := by
  simp [step, nextMove, hf, ha, perform]

theorem step_reset {s : State} {rest : List Event} (ha : s.agenda = .reset :: rest) :
    step s = .next (resetBlock { s with agenda := rest }) := by
  cases hf : s.faults <;> simp [step, nextMove, hf, ha, perform, performFaulted]

/-- In a run that has faulted the next move is a refusal, but for reset (60_exceptions R104). -/
theorem nextMove_faulted {s : State} {f : ModelFault} {fs : List ModelFault} (hf : s.faults = f :: fs)
    (ha : s.agenda.head? ≠ some .reset) : nextMove s = .answer (.refused (.faultedRun f)) := by
  cases hag : s.agenda with
  | nil => simp [nextMove, hf, hag]
  | cons e rest => cases e <;> simp_all [nextMove, performFaulted]

/-! ### What any step can do -/

/-- The kinds of step that give a next state; everything a step can do is one of these. -/
inductive StepKind (s : State) : State → Prop
  | idle (hf : s.faults = []) (ha : s.agenda = []) : StepKind s (freeRun s)
  | exec (u : UnitId) (c : Word) (i : Instr) (rest : List Event) (s' : State) (hf : s.faults = [])
      (ha : s.agenda = commandEvent u c :: rest) (hd : decode c = .instr i)
      (hx : exec i { s with agenda := rest, port := u } = .next s') : StepKind s s'
  | illegal (u : UnitId) (c : Word) (why : Reject) (rest : List Event) (hf : s.faults = [])
      (ha : s.agenda = commandEvent u c :: rest) (hd : decode c = .reject why) :
      StepKind s (illegalCommand c { s with agenda := rest, port := u })
  | misuse (a : BusAddr) (n : Width) (e : Event) (rest : List Event) (hf : s.faults = []) (ha : s.agenda = e :: rest)
      (he : (∃ v, e = .busWrite a n v) ∨ e = .busRead a n) (hm : misused a n = true) :
      StepKind s (recordFault (.busMisuse a n) { s with agenda := rest })
  | register (a : BusAddr) (v : Word) (u : UnitId) (r : Register) (rest : List Event) (n : Width) (hf : s.faults = [])
      (ha : s.agenda = .busWrite a n v :: rest) (hm : misused a n = false) (hp : placeAt a = .register u r)
      (hr : r ≠ .cmd) :
      StepKind s ({ s with agenda := rest }.modifyUnit u (writeRegister r v))
  | ignored (a : BusAddr) (n : Width) (v : Word) (rest : List Event) (hf : s.faults = [])
      (ha : s.agenda = .busWrite a n v :: rest) (hm : misused a n = false) (hp : ∀ u r, placeAt a ≠ .register u r) :
      StepKind s { s with agenda := rest }
  | read (a : BusAddr) (n : Width) (rest : List Event) (hf : s.faults = []) (ha : s.agenda = .busRead a n :: rest)
      (hm : misused a n = false) : StepKind s (busRead a n { s with agenda := rest })
  | stored (e : Event) (a : Word) (bytes : List Byte) (rest : List Event) (hf : s.faults = []) (ha : s.agenda = e :: rest)
      (he : (∃ v, e = .memWrite8 a v) ∨ ∃ v, e = .memWrite16 a v) (hk : a.toNat + bytes.length ≤ 2 ^ 32)
      (hs : sourceFaults { s with agenda := rest } a.toNat bytes.length = []) :
      StepKind s { s with agenda := rest, srcMem := Memory.writeBytes s.srcMem a.toNat bytes }
  | modified (e : Event) (a : Word) (bytes : List Byte) (rest : List Event) (hf : s.faults = []) (ha : s.agenda = e :: rest)
      (he : (∃ v, e = .memWrite8 a v) ∨ ∃ v, e = .memWrite16 a v)
      (hs : sourceFaults { s with agenda := rest } a.toNat bytes.length ≠ []) :
      StepKind s (recordFaults (sourceFaults { s with agenda := rest } a.toNat bytes.length) { s with agenda := rest })
  | turn (u : UnitId) (rest : List Event) (hf : s.faults = []) (ha : s.agenda = .unitTurn u :: rest) :
      StepKind s (unitStep u { s with agenda := rest })
  | reset (rest : List Event) (ha : s.agenda = .reset :: rest) : StepKind s (resetBlock { s with agenda := rest })

theorem memWrite_cases {a : Word} {bytes : List Byte} {s s' : State} (h : memWrite a bytes s = .next s') :
    (a.toNat + bytes.length ≤ 2 ^ 32 ∧ sourceFaults s a.toNat bytes.length = [] ∧
        s' = { s with srcMem := Memory.writeBytes s.srcMem a.toNat bytes }) ∨
      (sourceFaults s a.toNat bytes.length ≠ [] ∧ s' = recordFaults (sourceFaults s a.toNat bytes.length) s) := by
  unfold memWrite at h
  cases hs : sourceFaults s a.toNat bytes.length with
  | nil =>
    simp only [hs] at h
    split at h
    · cases h; exact .inl ⟨by assumption, rfl, rfl⟩
    · cases h
  | cons f fs => rw [hs] at h; cases h; exact .inr ⟨by simp, rfl⟩

/-- When a MemWrite has no byte in a busy unit's range (70_reset_and_hazards R122). -/
theorem sourceFaults_eq_nil (s : State) (a n : Nat) :
    sourceFaults s a n = [] ↔
      ∀ u k, k < n → a + k < 2 ^ 32 → (s.unit u).phase ≠ .idle → (s.unit u).lat.covers (a + k) = false := by
  have hof : ∀ u b, sourceFaultsOf s u b = [] ↔ (b < 2 ^ 32 → (s.unit u).phase ≠ .idle → (s.unit u).lat.covers b = false) := by
    intro u b; unfold sourceFaultsOf; split <;> simp_all
  induction n generalizing a with
  | zero => simp [sourceFaults]
  | succ n ih =>
    simp only [sourceFaults, List.append_eq_nil_iff, hof, ih]
    constructor
    · rintro ⟨⟨hc, hd⟩, hr⟩ u k hk
      cases k with
      | zero => cases u <;> assumption
      | succ k => rw [show a + (k + 1) = a + 1 + k by omega]; exact hr u k (by omega)
    · intro h
      refine ⟨⟨h .cu 0 (by omega), h .du 0 (by omega)⟩, fun u k hk => ?_⟩
      rw [show a + 1 + k = a + (k + 1) by omega]; exact h u (k + 1) (by omega)

/-- The faults of a MemWrite are those of its bytes in a busy unit's range, and no others (60_exceptions R104). -/
theorem mem_sourceFaults (s : State) (a n : Nat) (f : ModelFault) :
    f ∈ sourceFaults s a n ↔
      ∃ u k, k < n ∧ a + k < 2 ^ 32 ∧ (s.unit u).phase ≠ .idle ∧ (s.unit u).lat.covers (a + k) = true ∧
        f = .sourceModified u (BitVec.ofNat 32 (a + k)) := by
  have hof : ∀ u b, f ∈ sourceFaultsOf s u b ↔
      (b < 2 ^ 32 ∧ (s.unit u).phase ≠ .idle ∧ (s.unit u).lat.covers b = true ∧ f = .sourceModified u (BitVec.ofNat 32 b)) := by
    intro u b; unfold sourceFaultsOf; split <;> simp_all
  induction n generalizing a with
  | zero => simp [sourceFaults]
  | succ n ih =>
    simp only [sourceFaults, List.mem_append, hof, ih]
    constructor
    · rintro ((h | h) | ⟨u, k, hk, h⟩)
      · exact ⟨.cu, 0, by omega, h⟩
      · exact ⟨.du, 0, by omega, h⟩
      · exact ⟨u, k + 1, by omega, by rwa [show a + (k + 1) = a + 1 + k by omega]⟩
    · rintro ⟨u, k, hk, h⟩
      cases k with
      | zero => cases u <;> simp_all
      | succ k => exact .inr ⟨u, k, by omega, by rwa [show a + 1 + k = a + (k + 1) by omega]⟩

/-- What a MemWrite can do: record the faults of its bytes, store all of them, or stop at the end of the space. -/
theorem memWrite_next_iff (a : Word) (bytes : List Byte) (s : State) :
    (∃ s', memWrite a bytes s = .next s') ↔
      (sourceFaults s a.toNat bytes.length ≠ [] ∨ a.toNat + bytes.length ≤ 2 ^ 32) := by
  unfold memWrite
  cases hs : sourceFaults s a.toNat bytes.length with
  | nil =>
    constructor
    · rintro ⟨s', h⟩
      by_cases hk : a.toNat + bytes.length ≤ 2 ^ 32
      · exact .inr hk
      · simp only [if_neg hk] at h; cases h
    · rintro (h | hk)
      · exact absurd rfl h
      · exact ⟨_, if_pos hk⟩
  | cons f fs => exact ⟨fun _ => .inl (by simp), fun _ => ⟨_, rfl⟩⟩

theorem step_kind {s s' : State} (h : step s = .next s') : StepKind s s' := by
  cases hf : s.faults with
  | cons f fs =>
    cases ha : s.agenda with
    | nil => simp [step, nextMove_faulted hf (by simp [ha])] at h
    | cons e rest =>
      by_cases he : e = .reset
      · subst he; rw [step_reset ha] at h; cases h; exact .reset rest ha
      · simp [step, nextMove_faulted hf (by simp [ha, he])] at h
  | nil =>
    cases ha : s.agenda with
    | nil => rw [step_idle hf ha] at h; cases h; exact .idle hf ha
    | cons e rest =>
      cases e with
      | reset => rw [step_reset ha] at h; cases h; exact .reset rest ha
      | unitTurn u => rw [step_unitTurn hf ha] at h; cases h; exact .turn u rest hf ha
      | busRead a n =>
        rw [step_busRead hf ha] at h; cases h
        cases hm : misused a n with
        | true => simp only [busRead, hm, if_true]; exact .misuse a n _ rest hf ha (.inr rfl) hm
        | false => exact .read a n rest hf ha hm
      | memWrite8 a v =>
        rw [step_memWrite8 hf ha] at h
        obtain ⟨hk, hs, rfl⟩ | ⟨hs, rfl⟩ := memWrite_cases h
        · exact .stored _ a [v] rest hf ha (.inl ⟨v, rfl⟩) hk hs
        · exact .modified _ a [v] rest hf ha (.inl ⟨v, rfl⟩) hs
      | memWrite16 a v =>
        rw [step_memWrite16 hf ha] at h
        obtain ⟨hk, hs, rfl⟩ | ⟨hs, rfl⟩ := memWrite_cases h
        · exact .stored _ a _ rest hf ha (.inr ⟨v, rfl⟩) hk hs
        · exact .modified _ a _ rest hf ha (.inr ⟨v, rfl⟩) hs
      | busWrite a n v =>
        cases hm : misused a n with
        | true =>
          simp only [step, nextMove, hf, ha, perform, busWrite, hm, if_true] at h
          cases h
          simpa [hf] using StepKind.misuse (s := s) a n _ rest hf ha (.inl ⟨v, rfl⟩) hm
        | false =>
          cases hp : placeAt a with
          | unmapped =>
            simp only [step, nextMove, hf, ha, perform, busWrite, hm, hp] at h
            cases h
            simpa [hf] using StepKind.ignored (s := s) a n v rest hf ha hm (by simp [hp])
          | raster u off =>
            simp only [step, nextMove, hf, ha, perform, busWrite, hm, hp] at h
            cases h
            simpa [hf] using StepKind.ignored (s := s) a n v rest hf ha hm (by simp [hp])
          | register u r =>
            by_cases hr : r = .cmd
            · subst hr
              have hn : n = .word := (not_misused hm).2 u .cmd hp
              subst hn
              have hac := eq_cmdAddress hp hm
              subst hac
              rw [step_command hf ha, stepCommand] at h
              cases hd : decode v with
              | instr i => rw [hd] at h; exact .exec u v i rest s' hf ha hd h
              | reject why =>
                rw [hd] at h
                cases h
                exact .illegal u v why rest hf ha hd
            · have : busWrite a n v { s with agenda := rest } =
                  .answer (.next ({ s with agenda := rest }.modifyUnit u (writeRegister r v))) := by
                simp only [busWrite, hm, hp]
                cases r <;> simp at hr ⊢
              have h' : step s = .next ({ s with agenda := rest }.modifyUnit u (writeRegister r v)) := by
                simp only [hf] at this
                simp [step, nextMove, hf, ha, perform, this]
              rw [h'] at h
              cases h
              exact .register a v u r rest n hf ha hm hp hr

end Sys2Proof.Machine
end

