-- ==== Sys2Proof/Laws/Run.lean ====
section
/-! SUPPORT. Runs of several steps, one step at a time, and the steps of acknowledgements. -/

namespace Sys2Proof.Safety

open Sys2Proof.Machine

theorem coreRun_succ (M : Host.Core) (k : Nat) (s t : M.State) (h : M.step s = .next t) : M.run (k + 1) s = M.run k t := by
  simp only [Host.Core.run, h]

/-- A run of k + 1 steps is a step and a run of k. -/
theorem run_succ (k : Nat) {s t : State} (h : step s = .next t) :
    Host.Core.run Sys2Proof.core (k + 1) s = Host.Core.run Sys2Proof.core k t :=
  coreRun_succ Sys2Proof.core k s t h

theorem changedEvents_succ (u : UnitId) (k : Nat) {s t : State} (h : step s = .next t) :
    changedEvents u (k + 1) s = emitted u s t ++ changedEvents u k t := by
  rw [changedEvents, h]

theorem misused_ackAddress (u : UnitId) : misused (ackAddress u) .word = false := by cases u <;> decide

theorem placeAt_ackAddress (u : UnitId) : placeAt (ackAddress u) = .register u .ack := by
  cases u <;> simp [placeAt, ackAddress, windowBase, registerAt]

/-- A write to ACK at the head of the agenda (10_state R26). -/
theorem step_ack {s : State} {u : UnitId} {v : Word} {rest : List Event} (hf : s.faults = [])
    (ha : s.agenda = ackEvent u v :: rest) :
    step s = .next ({ s with agenda := rest }.modifyUnit u (writeAck v)) := by
  simp [step, nextMove, hf, ha, perform, ackEvent, busWrite, misused_ackAddress, placeAt_ackAddress]
  rfl

/-- A turn in NOTIFY (42_notifier R94, R98). -/
theorem step_notify {s : State} {u : UnitId} {rest : List Event} (hf : s.faults = []) (ha : s.agenda = .unitTurn u :: rest)
    (hp : (s.unit u).phase = .notify) : step s = .next ({ s with agenda := rest }.modifyUnit u notifyStep) := by
  rw [step_unitTurn hf ha]
  simp [unitStep, hp]

/-- A turn in WRITE (40_color_decode R69, 41_depth_decode R81). -/
theorem step_write {s : State} {u : UnitId} {rest : List Event} (hf : s.faults = []) (ha : s.agenda = .unitTurn u :: rest)
    (hp : (s.unit u).phase = .write) :
    step s = .next ({ s with agenda := rest }.modifyUnit u (storeFrame (newFrame s u))) := by
  rw [step_unitTurn hf ha]
  cases u <;> simp_all [unitStep, newFrame, colorFrame, depthFrame]

/-- The claims' form of a busy unit's range is the one MemWrite checks (70_reset_and_hazards R122). -/
theorem inBusyRange_iff (s : State) (u : UnitId) (a : Nat) :
    InBusyRange s u a ↔ (s.unit u).phase ≠ .idle ∧ (s.unit u).lat.covers a = true := by
  simp [InBusyRange, Latch.covers]

/-- A turn of a unit with no enabled step changes nothing (log 16). -/
theorem unitStep_disabled {s : State} {u : UnitId}
    (h : (s.unit u).phase = .idle ∨ ((s.unit u).phase = .notify ∧ ∃ e, (s.unit u).pend = some e)) : unitStep u s = s := by
  rcases h with h | ⟨h, e, he⟩
  · simp [unitStep, h]
  · have hstep : notifyStep (s.unit u) = s.unit u := by simp [notifyStep, he]
    cases u <;> simp_all [unitStep]

/-- Two updates of a unit that agree on it make the same state. -/
theorem modifyUnit_congr (s : State) (u : UnitId) {f g : UnitState → UnitState} (h : f (s.unit u) = g (s.unit u)) :
    s.modifyUnit u f = s.modifyUnit u g := by
  cases u <;> simp_all

end Sys2Proof.Safety
end

