-- ==== Sys2Proof/Laws/UnitChange.lean ====
section
/-! SUPPORT. What one step can do to one unit, said once, with the event that does it: every whole-machine rule about units is a
case analysis over it. -/

namespace Sys2Proof.Safety

open Sys2Proof.Machine

/-- Everything a step from `s` can make of unit `u`. -/
inductive UnitChange (u : UnitId) (s : State) : UnitState → Prop
  | same : UnitChange u s (s.unit u)
  | raised (code : Status) (idle : (s.unit u).phase = .idle) : UnitChange u s { s.unit u with lastStatus := code }
  | latched (c : Word) (i : Instr) (rest : List Event) (fmt : PixelFormat) (pairs : Bool) (bpp : Nat)
      (idle : (s.unit u).phase = .idle) (taken : s.agenda = commandEvent u c :: rest) (meant : decode c = .instr i)
      (decodes : DecodeFor u i) (passed : frameReject s.params (s.unit u) pairs bpp = none)
      (kind : (u = .cu ∧ fmt = .packedBgr32 ∧ bpp = 4) ∨ (u = .cu ∧ fmt = .uyvy ∧ bpp = 2 ∧ pairs = true) ∨
        (u = .du ∧ fmt = .packedBgr32 ∧ bpp = 2)) :
      UnitChange u s (latchDecode (decodeOpOf u) fmt (s.unit u))
  | subscribed (sink : Byte) (idle : (s.unit u).phase = .idle) : UnitChange u s (subscribeUnit s.params sink (s.unit u))
  | unsubscribed (handle : Half) (idle : (s.unit u).phase = .idle) : UnitChange u s (unsubscribeUnit handle (s.unit u))
  | written (turn : UnitTurn u s) (phase : (s.unit u).phase = .write) :
      UnitChange u s (storeFrame (newFrame s u) (s.unit u))
  | notified (turn : UnitTurn u s) (phase : (s.unit u).phase = .notify) : UnitChange u s (notifyStep (s.unit u))
  | register (r : Register) (v : Word) (rest : List Event) (notCmd : r ≠ .cmd)
      (ack : r = .ack → s.agenda = ackEvent u v :: rest) : UnitChange u s (writeRegister r v (s.unit u))
  | reset (rest : List Event) (taken : s.agenda = .reset :: rest) : UnitChange u s UnitState.reset

theorem newFrame_mk (s : State) (p : UnitId) (f : List ModelFault) (sc : Option Nat) (a : List Event) (b : Word) (d : Nat)
    (u : UnitId) : newFrame (State.mk s.params s.cu s.du sc s.srcMem f p a b d s.frameCount) u = newFrame s u := by
  cases u <;> rfl

theorem unitStep_change {u v : UnitId} {s s0 : State} (hu : ∀ w, s0.unit w = s.unit w) (hn : newFrame s0 u = newFrame s u)
    (turn : UnitTurn u s) : UnitChange v s ((unitStep u s0).unit v) := by
  by_cases huv : v = u
  · subst huv
    unfold unitStep
    rw [hu]
    cases hp : (s.unit v).phase with
    | idle => simpa only [hu] using UnitChange.same (u := v) (s := s)
    | write => simp only [modifyUnit_unit, hu, hn]; exact .written turn hp
    | notify => simp only [modifyUnit_unit, hu]; exact .notified turn hp
  · have : (unitStep u s0).unit v = s.unit v := by
      unfold unitStep
      split
      · exact hu v
      · rw [modifyUnit_unit_other _ _ huv, hu]
      · rw [modifyUnit_unit_other _ _ huv, hu]
    rw [this]
    exact .same

theorem raiseStatus_change {u : UnitId} {s s0 : State} (code : Status) (hu : ∀ w, s0.unit w = s.unit w)
    (hi : (s.unit s0.port).phase = .idle) : UnitChange u s ((raiseStatus code s0).unit u) := by
  by_cases h : u = s0.port
  · subst h
    rw [raiseStatus_unit_port, hu]
    exact .raised code hi
  · rw [raiseStatus, modifyUnit_unit_other _ _ h, hu]
    exact .same

theorem exec_change {u p : UnitId} {c : Word} {i : Instr} {s s' : State} {rest : List Event}
    (ha : s.agenda = commandEvent p c :: rest) (hd : decode c = .instr i)
    (hx : exec i { s with agenda := rest, port := p } = .next s') : UnitChange u s (s'.unit u) := by
  have hunit : ∀ w, State.unit { s with agenda := rest, port := p } w = s.unit w := fun w => by simp
  by_cases hi : (s.unit p).phase = .idle
  · have hidle : (State.unit { s with agenda := rest, port := p } p).phase = .idle := by rw [hunit]; exact hi
    cases i with
    | decodeColor fmt =>
      rw [exec_decodeColor_idle fmt hidle] at hx
      cases hx
      by_cases hp : p = .cu
      · subst hp
        simp only [if_true]
        rcases colorAcceptStep_cases fmt { s with agenda := rest, port := .cu } with ⟨code, -, he⟩ | ⟨hr, he⟩
        · rw [he]; exact raiseStatus_change code hunit hi
        · rw [he]
          cases u with
          | du => exact .same
          | cu =>
            cases fmt with
            | packedBgr32 => exact .latched c _ rest .packedBgr32 false 4 hi ha hd trivial hr (.inl ⟨rfl, rfl, rfl⟩)
            | uyvy => exact .latched c _ rest .uyvy true 2 hi ha hd trivial hr (.inr (.inl ⟨rfl, rfl, rfl, rfl⟩))
            | unrecognized tag => cases hr
      · simp only [hp, if_false]; exact raiseStatus_change _ hunit hi
    | decodeDepth =>
      rw [exec_decodeDepth_idle hidle] at hx
      cases hx
      by_cases hp : p = .du
      · subst hp
        simp only [if_true]
        rcases depthAcceptStep_cases { s with agenda := rest, port := .du } with ⟨code, -, he⟩ | ⟨hr, he⟩
        · rw [he]; exact raiseStatus_change code hunit hi
        · rw [he]
          cases u with
          | cu => exact .same
          | du => exact .latched c _ rest .packedBgr32 false 2 hi ha hd trivial hr (.inr (.inr ⟨rfl, rfl, rfl⟩))
      · simp only [hp, if_false]; exact raiseStatus_change _ hunit hi
    | subscribe sink =>
      rw [exec_subscribe_idle sink hidle] at hx
      cases hx
      by_cases h : u = p
      · subst h; rw [modifyUnit_unit, hunit]; exact .subscribed sink hi
      · rw [modifyUnit_unit_other _ _ h, hunit]; exact .same
    | unsubscribe handle =>
      rw [exec_unsubscribe_idle handle hidle] at hx
      cases hx
      by_cases h : u = p
      · subst h; rw [modifyUnit_unit, hunit]; exact .unsubscribed handle hi
      · rw [modifyUnit_unit_other _ _ h, hunit]; exact .same
  · rw [exec_busy i (by rw [hunit]; exact hi)] at hx
    cases hx
    rw [recordFault_unit, hunit]
    exact .same

theorem eq_ackAddress {a : BusAddr} {u : UnitId} (h : placeAt a = .register u .ack) (hal : a.toNat % 4 = 0) :
    a = ackAddress u := by
  have hreg : ∀ off, registerAt off = .ack → off / 4 = 9 := by
    intro off
    unfold registerAt
    split <;> simp_all
  apply BitVec.eq_of_toNat_eq
  unfold placeAt at h
  split at h
  · simp only [Place.register.injEq] at h
    obtain ⟨rfl, h⟩ := h
    have := hreg _ h
    simp [ackAddress, windowBase]; omega
  · split at h
    · simp only [Place.register.injEq] at h
      obtain ⟨rfl, h⟩ := h
      have := hreg _ h
      simp [ackAddress, windowBase]; omega
    · split at h
      · simp at h
      · split at h
        · simp at h
        · split at h <;> simp at h

/-- What a step that gives a next state made of each unit. -/
theorem step_unitChange {s s' : State} (h : step s = .next s') (u : UnitId) : UnitChange u s (s'.unit u) := by
  cases step_kind h with
  | idle hf ha =>
    unfold freeRun
    split
    · exact unitStep_change (fun w => by simp) (newFrame_mk s _ _ _ _ _ _ _) (.inl ha)
    · split
      · exact unitStep_change (fun _ => rfl) rfl (.inl ha)
      · exact unitStep_change (fun _ => rfl) rfl (.inl ha)
  | exec p c i rest s' hf ha hd hx => exact exec_change ha hd hx
  | illegal p c why rest hf ha hd =>
    have hunit : ∀ w, State.unit { s with agenda := rest, port := p } w = s.unit w := fun w => by simp
    unfold illegalCommand
    by_cases hi : (s.unit p).phase = .idle
    · rw [issue_idle _ _ (by rw [hunit]; exact hi)]
      exact raiseStatus_change _ hunit hi
    · rw [issue_busy _ _ (by rw [hunit]; exact hi), recordFault_unit, hunit]
      exact .same
  | misuse a n e rest hf ha he hm => rw [recordFault_unit, unit_mk]; exact .same
  | register a v p r rest n hf ha hm hp hr =>
    by_cases h : u = p
    · subst h
      rw [modifyUnit_unit, unit_mk]
      refine .register r v rest hr fun hack => ?_
      subst hack
      obtain ⟨hal, hword⟩ := not_misused hm
      have hn := hword _ _ hp
      subst hn
      rw [ha, eq_ackAddress hp hal, ackEvent]
    · rw [modifyUnit_unit_other _ _ h, unit_mk]; exact .same
  | ignored a n v rest hf ha hm hp => rw [unit_mk]; exact .same
  | read a n rest hf ha hm => simp only [busRead, hm]; exact .same
  | stored e a bytes rest hf ha he hk hs => rw [unit_mk]; exact .same
  | modified e a bytes rest hf ha he hs =>
    obtain ⟨l, heq, -⟩ := recordFaults_eq (sourceFaults { s with agenda := rest } a.toNat bytes.length) { s with agenda := rest }
    rw [heq, unit_mk]
    exact .same
  | turn p rest hf ha => exact unitStep_change (fun w => by simp) (newFrame_mk s _ _ _ _ _ _ _) (.inr (by rw [ha]; rfl))
  | reset rest ha => cases u <;> exact .reset rest ha

end Sys2Proof.Safety
end

