-- ==== Sys2Proof/Tests/Slice0.lean ====
section
/-! SUPPORT. The model's own tests: the ill-formed terms that are refused, words written out from the encodings of 30_encoding
R57 and R65, single steps with the results of 95_test_vectors, and for each statement with hypotheses a state that meets them
all (theorems `test_witness_…`). -/

namespace Sys2Proof.Tests

open Sys2Proof Sys2Proof.Machine Sys2Proof.Safety

/-! ### Small states -/

/-- The state an outcome goes on with. -/
def nextState : Host.Outcome State Fault Refusal → Option State
  | .next s => some s
  | .fault _ => none
  | .refused _ => none

/-- After reset, with events outstanding. -/
def start (events : List Event) : State := { State.reset with agenda := events }

/-- Both units idle, their operands written, a UYVY group at 0x1000 and a depth sample 0x0009 at 0x2000. -/
def ready (events : List Event) : State :=
  { start events with
    cu := { UnitState.reset with srcAddr := 0x1000, frameDim := 0x00010002 }
    du := { UnitState.reset with srcAddr := 0x2000, frameDim := 0x00010001 }
    srcMem := [(0x1000, 0x80), (0x1001, 0x10), (0x1002, 0x80), (0x1003, 0xEB), (0x2000, 0x09)] }

/-- A CU in WRITE for its second frame, and a DU in NOTIFY whose one event is pending. -/
def busy (events : List Event) : State :=
  { ready events with
    cu :=
      { UnitState.reset with
        phase := .write, allocW := 2, allocH := 1, raster := [1, 2, 3, 4, 5, 6, 7, 8], srcAddr := 0x1000, frameDim := 0x00010002
        lat := { op := .color, fmt := .uyvy, src := 0x1000, w := 2, h := 1 } }
    du :=
      { UnitState.reset with
        phase := .notify, allocW := 1, allocH := 1, raster := [0, 0, 255, 255], srcAddr := 0x2000, frameDim := 0x00010001
        lat := { op := .depth, fmt := .packedBgr32, src := 0x2000, w := 1, h := 1 }
        subs := [{ handle := 1, sink := 3 }], nextHandle := 2, pend := some { handle := 1, sink := 3 } } }

/-- A CU in NOTIFY with two subscriptions and no event pending yet; an idle DU. -/
def notifying (nidx : Nat) (events : List Event) : State :=
  { ready events with
    cu :=
      { UnitState.reset with
        phase := .notify, nidx := nidx, allocW := 2, allocH := 1, raster := [0, 0, 0, 255, 254, 254, 254, 255]
        lat := { op := .color, fmt := .uyvy, src := 0x1000, w := 2, h := 1 }
        subs := [{ handle := 1, sink := 0 }, { handle := 3, sink := 3 }], nextHandle := 4 } }

/-- A DU in WRITE for its first frame. -/
def depthWriting (events : List Event) : State :=
  { ready events with
    du :=
      { UnitState.reset with
        phase := .write, allocW := 1, allocH := 1
        lat := { op := .depth, fmt := .packedBgr32, src := 0x2000, w := 1, h := 1 } } }

/-- A CU in WRITE for its first frame, of the largest size that any legal parameters allow: 2 MiB of raster. -/
def largest (events : List Event) : State :=
  { start events with
    params := { Config.Params.defaults with maxW := 1024, maxH := 512 }
    cu :=
      { UnitState.reset with
        phase := .write, allocW := 1024, allocH := 512
        lat := { op := .color, fmt := .uyvy, src := 0, w := 1024, h := 512 } } }

/-- The invariant does not look at the agenda. -/
theorem inv_agenda {s : State} (events : List Event) (h : Inv s) : Inv { s with agenda := events } :=
  ⟨h.paramsLegal, h.cu, h.du, h.srcMem, h.faultsDistinct, h.scratch⟩

theorem unitInv_idle (u : UnitId) (src dim : Word) :
    UnitInv Config.Params.defaults u { UnitState.reset with srcAddr := src, frameDim := dim } := by
  constructor <;> simp [UnitState.reset]

theorem inv_start (events : List Event) : Inv (start events) :=
  inv_agenda (s := start []) events ⟨by decide, unitInv_idle _ _ _, unitInv_idle _ _ _, by decide, by decide, by simp [start, State.reset]⟩

theorem inv_ready (events : List Event) : Inv (ready events) :=
  inv_agenda (s := ready []) events
    ⟨by decide, unitInv_idle _ _ _, unitInv_idle _ _ _, by decide, by decide, by simp [ready, start, State.reset]⟩

theorem inv_busy (events : List Event) : Inv (busy events) := by
  refine inv_agenda (s := busy []) events ⟨by decide, ?_, ?_, by decide, by decide, by simp [busy, ready, start, State.reset]⟩
  · exact ⟨by decide, by decide, by decide, by decide, by decide, by decide, by decide, by decide, by decide,
      fun _ => ⟨by decide, by decide, by decide, by decide, by decide, by decide⟩, by decide, by intro e he; cases he⟩
  · exact ⟨by decide, by decide, by decide, by decide, by decide, by decide, by decide, by decide, by decide,
      fun _ => ⟨by decide, by decide, by decide, by decide, by decide, by decide⟩, by decide, by intro e he; cases he; decide⟩

theorem inv_largest (events : List Event) : Inv (largest events) := by
  refine inv_agenda (s := largest []) events
    ⟨by decide, ?_, ?_, by decide, by decide, by simp [largest, start, State.reset]⟩
  · exact ⟨by decide, by decide, by decide, by decide, by decide, by decide, by decide, by decide, by decide,
      fun _ => ⟨by decide, by decide, by decide, by decide, by decide, by decide⟩, by decide, by intro e he; cases he⟩
  · constructor <;> simp [largest, start, State.reset, UnitState.reset]

theorem inv_depthWriting (events : List Event) : Inv (depthWriting events) := by
  refine inv_agenda (s := depthWriting []) events
    ⟨by decide, unitInv_idle _ _ _, ?_, by decide, by decide, by simp [depthWriting, ready, start, State.reset]⟩
  exact ⟨by decide, by decide, by decide, by decide, by decide, by decide, by decide, by decide, by decide,
    fun _ => ⟨by decide, by decide, by decide, by decide, by decide, by decide⟩, by decide, by intro e he; cases he⟩

/-- The same state in a run with RACE_READ = ANY. -/
def withRaceAny (s : State) : State := { s with params := { s.params with raceRead := .any } }

theorem inv_withRaceAny {s : State} (h : Inv s) : Inv (withRaceAny s) := by
  have hu : ∀ u U, UnitInv s.params u U → UnitInv (withRaceAny s).params u U := fun u U h =>
    ⟨h.subsBound, h.handlesDistinct, h.handlesIssued, h.sinksExist, h.nextHandleRange, h.nidxRange, h.nidxInTable,
      h.allocTogether, h.allocFits, h.busy, h.rasterWhole, h.pending⟩
  exact ⟨h.paramsLegal, hu _ _ h.cu, hu _ _ h.du, h.srcMem, h.faultsDistinct, h.scratch⟩

/-! ### WellFormed and Decode -/

theorem test_illFormed_tag0 : (Instr.decodeColor (.unrecognized 0)).wellFormed = false := by decide

theorem test_illFormed_tag1 : (Instr.decodeColor (.unrecognized 1)).wellFormed = false := by decide

theorem test_wellFormed_tag2 : (Instr.decodeColor (.unrecognized 2)).wellFormed = true := by decide

/-- 30_encoding R57, R65: OP 0000_0001, 16 reserved bits, FMT 0000_0001. -/
theorem test_decode_decodeColor :
    decode 0b00000001000000000000000000000001#32 = .instr (.decodeColor .uyvy) ∧
      decode 0b00000001000000000000000000000000#32 = .instr (.decodeColor .packedBgr32) := by decide

/-- OP 0000_0010, 24 reserved bits. -/
theorem test_decode_decodeDepth : decode 0b00000010000000000000000000000000#32 = .instr .decodeDepth := by decide

/-- OP 0001_0000, 16 reserved bits, SINK 1010_0101. -/
theorem test_decode_subscribe : decode 0b00010000000000000000000010100101#32 = .instr (.subscribe 0xA5) := by decide

/-- OP 0001_0001, 8 reserved bits, HANDLE 1000_0000_0000_0011. -/
theorem test_decode_unsubscribe : decode 0b00010001000000001000000000000011#32 = .instr (.unsubscribe 0x8003) := by decide

/-- 95_test_vectors L2.1: words that are illegal at either unit. -/
theorem test_decode_illegal :
    decode 0x01000100 = .reject (.reservedFieldNonzero 0x01) ∧ decode 0x02000001 = .reject (.reservedFieldNonzero 0x02) ∧
      decode 0x10000100 = .reject (.reservedFieldNonzero 0x10) ∧ decode 0x11010001 = .reject (.reservedFieldNonzero 0x11) ∧
      decode 0x0F000000 = .reject (.reservedOpcode 0x0F) ∧ decode 0xFFFFFFFF = .reject (.reservedOpcode 0xFF) := by decide

/-- The table's bits are the word's (30_encoding R64). -/
theorem test_decodeTableWord : decodeTableWord 32 0x1100FFFF = some (.unsubscribe 0xFFFF) ∧ decodeTableWord 32 0 = none := by
  decide

/-- A row's word runs as the first command after reset; DECODE_DEPTH's goes to the DU (log 4). Its FRAME_DIM is 0, so it is
InvalidGeometry (95_test_vectors L2.4). -/
theorem test_fetch_decodeDepth :
    (nextState (step (State.reset.withFetchWord 32 0x02000000))).map (fun t => (t.du.lastStatus, t.cu.lastStatus)) =
      some (.invalidGeometry, .noneYet) := by decide +kernel

/-! ### DECODE_COLOR -/

/-- 95_test_vectors P1: the frame is accepted and latched, and LAST_STATUS is still NONE. -/
theorem test_decodeColor_accepted :
    (nextState (step (ready [commandEvent .cu 0x01000001]))).map (fun t =>
        (t.cu.phase, t.cu.lat, t.cu.lastStatus, t.cuScratch)) =
      some (.write, { op := .color, fmt := .uyvy, src := 0x1000, w := 2, h := 1 }, .noneYet, some 2) := by decide +kernel

/-- 95_test_vectors L2.3, first row, and P1. -/
theorem test_decodeColor_written :
    (nextState (step (busy [.unitTurn .cu]))).map (fun t => (t.cu.phase, t.cu.raster)) =
      some (.notify, [0x00, 0x00, 0x00, 0xFF, 0xFE, 0xFE, 0xFE, 0xFF]) := by decide +kernel

/-- 95_test_vectors L2.2: rows that a swapped operand or sign would change. -/
theorem test_csc_rows :
    cscPixel .exact 0 0 0 0 0 = [0, 135, 0, 0xFF] ∧ cscPixel .exact 0 0 255 0 255 = [19, 224, 255, 0xFF] ∧
      cscPixel .exact 0 0 100 200 50 = [243, 133, 0, 0xFF] ∧ cscPixel .exact 0 0 0 119 43 = [0, 54, 0, 0xFF] := by
  decide +kernel

/-- 95_test_vectors L2.3, the last packed row: alpha is copied. -/
theorem test_packed_alpha : packedPixel [(7, 0x11), (8, 0x22), (9, 0x33), (10, 0x44)] 7 0 = [0x11, 0x22, 0x33, 0x44] := by decide

/-! ### DECODE_DEPTH -/

/-- 95_test_vectors L2.4: an odd width is accepted. -/
theorem test_decodeDepth_accepted :
    (nextState (step { ready [commandEvent .du 0x02000000] with
        du := { UnitState.reset with srcAddr := 0xFFFFFFFA, frameDim := 0x00010003 } })).map (fun t =>
          (t.du.phase, t.du.allocW, t.du.lat.op)) =
      some (.write, 3, .depth) := by decide +kernel

/-- 95_test_vectors L2.5b: sample 0x0009, bytes `09 00`. -/
theorem test_decodeDepth_written :
    (nextState (step (depthWriting [.unitTurn .du]))).map (fun t => (t.du.phase, t.du.raster)) =
      some (.notify, [0x00, 0x00, 0xFF, 0xFF]) := by decide +kernel

/-- 95_test_vectors L2.5b and L2.5c. -/
theorem test_depth_samples :
    depthPixel 0x0FFA = [0x00, 0xF0, 0x00, 0xFF] ∧ depthPixel 0x1003 = [0xF0, 0x00, 0x00, 0xFF] ∧
      depthPixel 0x8000 = [0x40, 0x40, 0x40, 0xFF] ∧ depthPixel 0x8001 = [0x00, 0x00, 0x80, 0xFF] ∧
      depthPixel 0x4004 = [0x00, 0xC0, 0xC0, 0xFF] ∧ depthPixel 0xFFFF = [0x00, 0x00, 0x00, 0xFF] := by decide +kernel

/-! ### SUBSCRIBE and UNSUBSCRIBE -/

/-- 95_test_vectors L2.6, limits: the last handle. -/
theorem test_subscribe_lastHandle :
    (nextState (step { start [commandEvent .cu 0x10000000] with cu := { UnitState.reset with nextHandle := 65535 } })).map
        (fun t => (t.cu.result, t.cu.nextHandle, t.cu.subs, t.cu.lastStatus)) =
      some (0xFFFF, 65536, [{ handle := 0xFFFF, sink := 0 }], .ok) := by decide +kernel

/-- 95_test_vectors L2.6, limits: the sink is checked first, and RESULT is 0. -/
theorem test_subscribe_sinkFirst :
    (nextState (step { start [commandEvent .du 0x10000004] with
        du := { UnitState.reset with result := 7, subs := List.replicate 8 { handle := 1, sink := 0 } } })).map
        (fun t => (t.du.result, t.du.lastStatus)) =
      some (0, .invalidSink) := by decide +kernel

/-- 95_test_vectors L2.6, step 5: the others keep their order. -/
theorem test_unsubscribe_middle :
    (nextState (step { start [commandEvent .cu 0x11000002] with
        cu := { UnitState.reset with
          subs := [{ handle := 1, sink := 0 }, { handle := 2, sink := 0 }, { handle := 3, sink := 3 }] } })).map
        (fun t => (t.cu.subs, t.cu.lastStatus)) =
      some ([{ handle := 1, sink := 0 }, { handle := 3, sink := 3 }], .ok) := by decide +kernel

/-- 95_test_vectors L2.6: the tables are per unit. -/
theorem test_unsubscribe_otherUnit :
    (nextState (step { start [commandEvent .du 0x11000001] with
        cu := { UnitState.reset with subs := [{ handle := 1, sink := 0 }] } })).map
        (fun t => (t.cu.subs.length, t.du.lastStatus)) =
      some (1, .noSuchSubscriber) := by decide +kernel

/-! ### BUS, source memory and reset -/

/-- The table of 60_exceptions R102. -/
theorem test_status_codes :
    [Status.noneYet, .ok, .unsupportedFormat, .dimensionMismatch, .subscriberFailure, .invalidGeometry, .sourceRange,
        .illegalCommand, .subscriberTableFull, .handleExhausted, .invalidSink, .noSuchSubscriber].map (fun c => c.code) =
      [0x00, 0x01, 0x10, 0x11, 0x12, 0x20, 0x21, 0x30, 0x40, 0x41, 0x42, 0x43] := by decide

/-- 95_test_vectors L2.7: raster reads. -/
theorem test_raster_reads :
    (nextState (step (notifying 0 [.busRead 0x400004 .word]))).map (fun t => t.busData) = some 0xFFFEFEFE ∧
      (nextState (step (notifying 0 [.busRead 0x400006 .half]))).map (fun t => t.busData) = some 0xFFFE ∧
      (nextState (step (notifying 0 [.busRead 0x400008 .word]))).map (fun t => t.busData) = some 0 ∧
      (nextState (step (notifying 0 [.busRead 0x400003 .half]))).map (fun t => t.faults) = some [.busMisuse 0x400003 .half] := by
  decide +kernel

/-- 95_test_vectors L2.6: PENDING and the CHANGED line after the deliver step of (3, 3). -/
theorem test_deliver :
    (nextState (step (notifying 1 [.unitTurn .cu]))).map (fun t =>
        (pendingRegister t.cu, changedLine t 3, changedLine t 0, statusRegister t.cu)) =
      some (0x80030003, true, false, 0x00000007) := by decide +kernel

/-- 30_encoding R65, 95_test_vectors P1: mw16 is little-endian. -/
theorem test_mw16 :
    (nextState (step (start [.memWrite16 0x1000 0x1080]))).map (fun t => t.srcMem) = some [(0x1000, 0x80), (0x1001, 0x10)] := by
  decide +kernel

/-- 70_reset_and_hazards R122, 60_exceptions R104: one byte past the range, and its last byte. -/
theorem test_sourceModified :
    (nextState (step (busy [.memWrite8 0x1004 1]))).map (fun t => t.faults) = some [] ∧
      (nextState (step (busy [.memWrite8 0x1003 1]))).map (fun t => t.faults) = some [.sourceModified .cu 0x1003] := by
  decide +kernel

/-- 95_test_vectors L2.8. -/
theorem test_reset :
    (nextState (step (busy [.reset]))).map (fun t =>
        (t.cu, t.du, t.srcMem.length, changedLine t 3, statusRegister t.du)) =
      some (UnitState.reset, UnitState.reset, 5, false, 0) := by decide +kernel

/-! ### Hypotheses that can be met, one theorem a statement; several where a statement has several clauses -/

theorem test_witness_DecodeOfEncode : (Instr.decodeColor (.unrecognized 2)).wellFormed = true := by decide

theorem test_witness_EncodeOfDecode : decode 0x1100FFFF = .instr (.unsubscribe 0xFFFF) := by decide

theorem test_witness_DecodeAgreesWithMasks :
    (0x010000FF : Word) &&& 0xFFFFFF00 = 0x01000000 ∧ (0x100000FF : Word) &&& 0xFFFFFF00 = 0x10000000 ∧
      (0x1100FFFF : Word) &&& 0xFFFF0000 = 0x11000000 ∧
      ((0x02000001 : Word) &&& 0xFFFFFF00 ≠ 0x01000000 ∧ (0x02000001 : Word) ≠ 0x02000000 ∧
        (0x02000001 : Word) &&& 0xFFFFFF00 ≠ 0x10000000 ∧ (0x02000001 : Word) &&& 0xFFFF0000 ≠ 0x11000000) := by decide

theorem test_witness_StepRunsDecodedCommand :
    FaultFree (ready [commandEvent .du 0x02000000]) ∧
      (ready [commandEvent .du 0x02000000]).agenda = commandEvent .du 0x02000000 :: [] ∧
      decode 0x02000000 = .instr .decodeDepth := by decide

/-- Both clauses: an accepted DECODE leaves IDLE. -/
theorem test_witness_CmdWriteDispatch :
    FaultFree (ready [commandEvent .cu 0x01000001]) ∧
      (ready [commandEvent .cu 0x01000001]).agenda = commandEvent .cu 0x01000001 :: [] ∧
      ((ready []).unit .cu).phase = .idle ∧
      (nextState (step (ready [commandEvent .cu 0x01000001]))).map (fun t => decide ((t.unit .cu).phase ≠ .idle)) = some true := by
  decide +kernel

/-- The word of each of the six cases. -/
theorem test_witness_IllegalCommandWords :
    FaultFree (ready [commandEvent .cu 0x0F000000]) ∧ ((ready []).unit .cu).phase = .idle ∧ ((ready []).unit .du).phase = .idle ∧
      opField 0x0F000000 ≠ 0x01 ∧ opField 0x0F000000 ≠ 0x02 ∧ opField 0x0F000000 ≠ 0x10 ∧ opField 0x0F000000 ≠ 0x11 ∧
      opField 0x01000100 = 0x01 ∧ (0x01000100 : Word).extractLsb' 8 16 ≠ (0 : Half) ∧
      opField 0x10800000 = 0x10 ∧ (0x10800000 : Word).extractLsb' 8 16 ≠ (0 : Half) ∧
      opField 0x02000001 = 0x02 ∧ (0x02000001 : Word).extractLsb' 0 24 ≠ (0 : BitVec 24) ∧
      opField 0x11010001 = 0x11 ∧ (0x11010001 : Word).extractLsb' 16 8 ≠ (0 : Byte) ∧
      opField 0x01000001 = 0x01 ∧ opField 0x02000000 = 0x02 := by decide

/-- Both clauses. -/
theorem test_witness_ConcurrentCommandFault :
    FaultFree (busy [commandEvent .cu 0]) ∧ ((busy [commandEvent .cu 0]).unit .cu).phase ≠ .idle ∧
      FaultFree (ready [commandEvent .cu 0]) ∧ ((ready [commandEvent .cu 0]).unit .cu).phase = .idle := by decide

theorem test_witness_DecodeColorAcceptStep :
    (ready []).port = .cu ∧ (ready []).cu.phase = .idle ∧ (ready []).cu.frameDim = (1 : Half) ++ (2 : Half) := by decide

theorem test_witness_DecodeFrame :
    ((ready []).unit (ready []).port).phase = .idle ∧
      (nextState (exec (.decodeColor .uyvy) (ready []))).map (fun t => (t.unit .cu).phase) = some .write ∧
      (nextState (exec .decodeDepth (ready []))).map (fun t => (t.unit .cu).phase) = some .idle := by decide +kernel

/-- Both formats. -/
theorem test_witness_CuWriteStep :
    FaultFree (busy [.unitTurn .cu]) ∧ (busy [.unitTurn .cu]).agenda = .unitTurn .cu :: [] ∧
      (busy [.unitTurn .cu]).cu.phase = .write ∧ (busy [.unitTurn .cu]).cu.lat.fmt = .uyvy ∧
      0 < ((busy []).cu.lat.w.toNat * (busy []).cu.lat.h.toNat) / 2 ∧
      (nextState (exec (.decodeColor .packedBgr32) (ready []))).map (fun t => (t.cu.phase, t.cu.lat.fmt, t.faults)) =
        some (.write, .packedBgr32, []) := by decide +kernel

theorem test_witness_UyvyGroupSharesChroma :
    Memory.read (ready []).srcMem (0x1000 + 4 * 0 + 0) = 0x80 ∧ Memory.read (ready []).srcMem (0x1000 + 4 * 0 + 1) = 0x10 ∧
      Memory.read (ready []).srcMem (0x1000 + 4 * 0 + 2) = 0x80 ∧ Memory.read (ready []).srcMem (0x1000 + 4 * 0 + 3) = 0xEB := by
  decide +kernel

/-- The ends of the range of boundary points, and the multiples of 1000 just outside it. -/
theorem test_witness_BoundaryEitherDiffersByOne :
    ((1000 : Int) % 1000 = 0 ∧ (1000 : Int) ≤ 1000) ∧ ((255000 : Int) % 1000 = 0 ∧ (255000 : Int) ≤ 255000) ∧
      ¬((0 : Int) % 1000 = 0 ∧ (1000 : Int) ≤ 0) ∧ ¬((256000 : Int) % 1000 = 0 ∧ (256000 : Int) ≤ 255000) := by decide

/-- The ends of the luma ranges of the last two clauses, and two lumas in order. -/
theorem test_witness_CscProperties :
    (16 : Byte).toNat ≤ 16 ∧ 236 ≤ (236 : Byte).toNat ∧ (16 : Byte).toNat ≤ (236 : Byte).toNat := by decide

/-- Each clause on reals has a point. -/
theorem test_witness_ClampAndTruncateCommute : (-1 : ℝ) < 0 ∧ (0 : ℝ) ≤ 0 ∧ (255 : ℝ) ≤ 255 ∧ (255 : ℝ) < 256 := by norm_num

theorem test_witness_DecodeDepthAcceptStep :
    let s : State := { ready [] with port := .du }
    s.port = .du ∧ s.du.phase = .idle ∧ s.du.frameDim = (1 : Half) ++ (1 : Half) := by decide

theorem test_witness_DuWriteStep :
    FaultFree (depthWriting [.unitTurn .du]) ∧ (depthWriting [.unitTurn .du]).agenda = .unitTurn .du :: [] ∧
      (depthWriting [.unitTurn .du]).du.phase = .write ∧ 0 < (depthWriting []).du.lat.w.toNat * (depthWriting []).du.lat.h.toNat := by
  decide

/-- The ends of the ranges, and a sample of each kind. -/
theorem test_witness_IntensityProperties :
    (32 : Nat) ≤ 33 ∧ (33 : Nat) ≤ 8191 ∧ (8191 : Nat) ≤ 8191 ∧ (0x0008 : Half).toNat % 8 = 0 ∧
      (depthPixel 0x0008)[2]? = some 127 ∧ 0xFFF8 ≤ (0xFFF8 : Half).toNat := by decide +kernel

/-- Both clauses. -/
theorem test_witness_SubscribeResult :
    ((busy []).unit (busy []).port).phase ≠ .idle ∧ ((ready []).unit (ready []).port).phase = .idle := by decide

/-- Both clauses: handle 0, a handle not in the table, and a handle between two others. -/
theorem test_witness_UnsubscribeResult :
    let s : State := { ready [] with cu := { UnitState.reset with
      subs := [{ handle := 1, sink := 0 }] ++ { handle := 2, sink := 3 } :: [{ handle := 3, sink := 0 }] } }
    (s.unit s.port).phase = .idle ∧ (∀ e ∈ (s.unit s.port).subs, e.handle ≠ 4) ∧ (2 : Half) ≠ 0 ∧
      (s.unit s.port).subs = [{ handle := 1, sink := 0 }] ++ { handle := 2, sink := 3 } :: [{ handle := 3, sink := 0 }] ∧
      ∀ e ∈ [({ handle := 1, sink := 0 } : Subscription)] ++ [{ handle := 3, sink := 0 }], e.handle ≠ 2 := by decide

theorem test_witness_SubscriptionFrame :
    ((ready []).unit (ready []).port).phase = .idle ∧
      (nextState (exec (.subscribe 3) (ready []))).map (fun t => t.cu.result) = some 1 ∧
      (nextState (exec (.unsubscribe 3) (ready []))).map (fun t => t.cu.lastStatus) = some .noSuchSubscriber := by decide +kernel

/-- A step that adds an entry, from a state of the invariant. -/
theorem test_witness_HandlesNeverReused :
    Inv (start [commandEvent .cu 0x10000000]) ∧ (start [commandEvent .cu 0x10000000]).agenda.head? ≠ some .reset ∧
      (nextState (step (start [commandEvent .cu 0x10000000]))).map (fun t => (t.unit .cu).subs) =
        some [{ handle := 1, sink := 0 }] := ⟨inv_start _, by decide, by decide +kernel⟩

theorem test_witness_DeliverStep :
    FaultFree (notifying 1 [.unitTurn .cu]) ∧ (notifying 1 [.unitTurn .cu]).agenda = .unitTurn .cu :: [] ∧
      ((notifying 1 []).unit .cu).phase = .notify ∧ ((notifying 1 []).unit .cu).pend = none ∧
      ((notifying 1 []).unit .cu).subs[((notifying 1 []).unit .cu).nidx]? = some { handle := 3, sink := 3 } := by decide

theorem test_witness_CompleteStep :
    FaultFree (notifying 2 [.unitTurn .cu]) ∧ (notifying 2 [.unitTurn .cu]).agenda = .unitTurn .cu :: [] ∧
      ((notifying 2 []).unit .cu).phase = .notify ∧ ((notifying 2 []).unit .cu).pend = none ∧
      ((notifying 2 []).unit .cu).nidx = ((notifying 2 []).unit .cu).subs.length := by decide

/-- An ACK of OK with its ignored bits all set. -/
theorem test_witness_AckOfOk :
    FaultFree (busy [ackEvent .du 0xFFFFFFFD]) ∧ (busy [ackEvent .du 0xFFFFFFFD]).agenda = ackEvent .du 0xFFFFFFFD :: [] ∧
      (0xFFFFFFFD : Word).toNat % 4 = 1 ∧ ((busy []).unit .du).pend = some { handle := 1, sink := 3 } := by decide

theorem test_witness_AckOfFail :
    FaultFree (busy [ackEvent .du 2]) ∧ (busy [ackEvent .du 2]).agenda = ackEvent .du 2 :: [] ∧
      (2 : Word).toNat % 4 = 2 ∧ ((busy []).unit .du).pend = some { handle := 1, sink := 3 } := by decide

/-- Nothing pending, CODE 0 and CODE 3. -/
theorem test_witness_AckIgnored :
    FaultFree (busy [ackEvent .cu 1]) ∧ (busy [ackEvent .cu 1]).agenda = ackEvent .cu 1 :: [] ∧
      ((busy [ackEvent .cu 1]).unit .cu).pend = none ∧ (0 : Word).toNat % 4 = 0 ∧ (3 : Word).toNat % 4 = 3 := by decide

/-- Both cases: an IDLE unit, and one whose event is pending. -/
theorem test_witness_TurnWithoutEnabledStep :
    FaultFree (ready [.unitTurn .cu]) ∧ (ready [.unitTurn .cu]).agenda = .unitTurn .cu :: [] ∧
      ((ready [.unitTurn .cu]).unit .cu).phase = .idle ∧ FaultFree (busy [.unitTurn .du]) ∧
      (busy [.unitTurn .du]).agenda = .unitTurn .du :: [] ∧ ((busy [.unitTurn .du]).unit .du).phase = .notify ∧
      ((busy [.unitTurn .du]).unit .du).pend = some { handle := 1, sink := 3 } := by decide

/-- The first and the last line. -/
theorem test_witness_ChangedLineLevel : 0 < (busy []).params.sinkCount ∧ 3 < (busy []).params.sinkCount := by decide

theorem test_witness_NotifyRoundCompletes :
    let s := notifying 0 (okRounds .cu 2 ++ .unitTurn .cu :: [])
    FaultFree s ∧ (s.unit .cu).phase = .notify ∧ (s.unit .cu).pend = none ∧ (s.unit .cu).nidx = 0 ∧
      s.agenda = okRounds .cu (s.unit .cu).subs.length ++ .unitTurn .cu :: [] := by decide

theorem test_witness_NotifyRoundFails :
    let s := notifying 0 (okRounds .cu 1 ++ .unitTurn .cu :: ackEvent .cu 2 :: [])
    FaultFree s ∧ (s.unit .cu).phase = .notify ∧ (s.unit .cu).pend = none ∧ (s.unit .cu).nidx = 0 ∧
      (s.unit .cu).subs[1]? = some { handle := 3, sink := 3 } ∧ (2 : Word).toNat % 4 = 2 ∧
      s.agenda = okRounds .cu 1 ++ .unitTurn .cu :: ackEvent .cu 2 :: [] := by decide

theorem test_witness_DecodeRunsToCompletion :
    let s := ready (commandEvent .cu (encode (.decodeColor .uyvy)) :: .unitTurn .cu :: (okRounds .cu 0 ++ .unitTurn .cu :: []))
    Inv s ∧ FaultFree s ∧ (s.unit .cu).phase = .idle ∧ (Instr.decodeColor .uyvy).wellFormed = true ∧
      s.agenda =
        commandEvent .cu (encode (.decodeColor .uyvy)) :: .unitTurn .cu ::
          (okRounds .cu (s.unit .cu).subs.length ++ .unitTurn .cu :: []) ∧
      (nextState (step s)).map (fun t => (t.unit .cu).phase) = some .write :=
  ⟨inv_ready _, by decide, by decide, by decide, by decide, by decide +kernel⟩

/-- Both clauses: misaligned, narrow in the last register window, narrow just past it, and a word in it. -/
theorem test_witness_BusMisuseRecorded :
    FaultFree (ready [.busRead 0x1FE .half]) ∧ (0x400003 : BusAddr).toNat % Width.bytes .half ≠ 0 ∧
      (0x1FE : BusAddr).toNat < 0x200 ∧ (0x200 : BusAddr).toNat % Width.bytes .byte = 0 ∧ 0x200 ≤ (0x200 : BusAddr).toNat ∧
      (0x1FC : BusAddr).toNat % Width.bytes .word = 0 := by decide

/-- Every register's offset, the reserved ones at both ends. -/
theorem test_witness_RegisterReadValues :
    FaultFree (busy [.busRead 0x000104 .word]) ∧
      (busy [.busRead 0x000104 .word]).agenda = .busRead (BitVec.ofNat 24 (windowBase .du + 0x04)) .word :: [] ∧
      (∀ off ∈ [0x00, 0x04, 0x08, 0x0C, 0x10, 0x14, 0x18, 0x1C, 0x20, 0x24, 0x28, 0xFC], off % 4 = 0 ∧ off < 0x100) ∧
      ((busy []).unit .du).subs.length ≤ 255 ∧ ((busy []).unit .cu).pend = none ∧
      ((busy []).unit .du).pend = some { handle := 1, sink := 3 } := by decide

/-- The two RW registers, a read-only one and the last reserved one. -/
theorem test_witness_RegisterWrites :
    FaultFree (busy [.busWrite 0x00010C .word 7]) ∧
      (busy [.busWrite 0x00010C .word 7]).agenda = .busWrite (BitVec.ofNat 24 (windowBase .du + 0x0C)) .word 7 :: [] ∧
      ∀ off ∈ [0x04, 0x08, 0x0C, 0xFC], off % 4 = 0 ∧ off < 0x100 ∧ off ≠ 0x00 ∧ off ≠ 0x24 := by decide

/-- The ends of both unmapped ranges and of the raster windows. -/
theorem test_witness_UnmappedAndRasterWrites :
    FaultFree (ready [.busRead 0x000200 .word]) ∧ (ready [.busRead 0x000200 .word]).agenda = .busRead 0x000200 .word :: [] ∧
      (0x000200 : BusAddr).toNat % Width.bytes .word = 0 ∧ 0x200 ≤ (0x000200 : BusAddr).toNat ∧
      (0x3FFFFC : BusAddr).toNat < 0x400000 ∧ 0x800000 ≤ (0x800000 : BusAddr).toNat ∧ 0x800000 ≤ (0xFFFFFC : BusAddr).toNat ∧
      (ready [.busWrite 0x7FFFFC .word 1]).agenda = .busWrite 0x7FFFFC .word 1 :: [] := by decide

/-- The last pixel that is live, and the last offset of the window. -/
theorem test_witness_RasterReadBytes :
    let s := busy [.busRead (BitVec.ofNat 24 (rasterBase .du + 0)) .word]
    Inv s ∧ FaultFree s ∧ (s.unit .du).phase ≠ .write ∧ 0 % Width.bytes .word = 0 ∧ 2 ^ 21 - 4 < 2 ^ 21 ∧
      (s.unit .du).allocW ≠ 0 ∧ 0 + 3 < 4 * (s.unit .du).allocW.toNat * (s.unit .du).allocH.toNat :=
  ⟨inv_busy _, by decide, by decide, by decide, by decide, by decide, by decide⟩

/-- The last live pixel, the first offset past the live region, and the last offset of the window, in the three widths. -/
theorem test_witness_RacingReadOldOrNew :
    let s := busy [.busRead (BitVec.ofNat 24 (rasterBase .cu + 4)) .word]
    Inv s ∧ FaultFree s ∧ (s.unit .cu).phase = .write ∧ (s.unit .cu).raster ≠ [] ∧ s.params.raceRead = .oldOrNew ∧
      4 % Width.bytes .word = 0 ∧ 4 + 3 < liveBytes (s.unit .cu) ∧
      8 % Width.bytes .half = 0 ∧ ¬8 < liveBytes (s.unit .cu) ∧ (2 ^ 21 - 1) % Width.bytes .byte = 0 :=
  ⟨inv_busy _, by decide, by decide, by decide, by decide, by decide, by decide, by decide, by decide, by decide⟩

/-- The first WRITE phase, under ANY, past the live region. -/
theorem test_witness_RacingReadOldOrNew_firstAny :
    let s := withRaceAny (depthWriting [.busRead (BitVec.ofNat 24 (rasterBase .du + 4)) .word])
    Inv s ∧ FaultFree s ∧ (s.unit .du).phase = .write ∧ (s.unit .du).raster = [] ∧ s.params.raceRead = .any ∧
      4 % Width.bytes .word = 0 ∧ ¬4 < liveBytes (s.unit .du) ∧ (nextState (step s)).map (fun t => t.busData) = some 0 :=
  ⟨inv_withRaceAny (inv_depthWriting _), by decide, by decide, by decide, by decide, by decide, by decide, by decide +kernel⟩

theorem test_witness_ReadsHaveNoSideEffect :
    FaultFree (busy [.busRead 0x400000 .word]) ∧ misused 0x400000 .word = false ∧
      (busy [.busRead 0x400000 .word]).agenda = .busRead 0x400000 .word :: [] := by decide +kernel

/-- A register of the unit in WRITE, and the raster of the other. -/
theorem test_witness_RepeatedReadSameData :
    let s := busy [.busRead 0x000008 .word, .busRead 0x000008 .word]
    FaultFree s ∧ misused 0x000008 .word = false ∧ placeAt 0x000008 = .register .cu .srcAddr ∧
      s.agenda = .busRead 0x000008 .word :: .busRead 0x000008 .word :: [] ∧
      misused 0x600000 .word = false ∧ placeAt 0x600000 = .raster .du 0 ∧ (s.unit .du).phase ≠ .write := by decide +kernel

/-- The first clause: mw16 just below the CU's range, and mw8 at the last source address. -/
theorem test_witness_HostMemWrite :
    Inv (busy [.memWrite16 0x0FFE 1]) ∧ FaultFree (busy [.memWrite16 0x0FFE 1]) ∧ MemWriteOf (.memWrite16 0x0FFE 1) 0x0FFE [1, 0] ∧
      (∀ u k, k < 2 → ¬InBusyRange (busy [.memWrite16 0x0FFE 1]) u ((0x0FFE : Word).toNat + k)) ∧
      MemWriteOf (.memWrite8 0xFFFFFFFF 1) 0xFFFFFFFF [1] ∧ (0xFFFFFFFF : Word).toNat + 1 ≤ 2 ^ 32 := by
  refine ⟨inv_busy _, by decide, .inr ⟨1, rfl, by decide⟩, ?_, .inl ⟨1, rfl, by decide⟩, by decide⟩
  rintro u k hk ⟨-, hlo, hhi⟩
  cases u <;> simp [busy, ready, start] at hlo hhi <;> omega

/-- The second clause: mw8 and mw16 on the last byte of the CU's range. -/
theorem test_witness_HostMemWrite_inRange :
    Inv (busy [.memWrite8 0x1003 1]) ∧ FaultFree (busy [.memWrite8 0x1003 1]) ∧ MemWriteOf (.memWrite8 0x1003 1) 0x1003 [1] ∧
      MemWriteOf (.memWrite16 0x1003 1) 0x1003 [1, 0] ∧
      InBusyRange (busy [.memWrite8 0x1003 1]) .cu ((0x1003 : Word).toNat + 0) :=
  ⟨inv_busy _, by decide, .inl ⟨1, rfl, by decide⟩, .inr ⟨1, rfl, by decide⟩, by decide, by decide, by decide⟩

theorem test_witness_OnlyHostsWriteSource :
    (nextState (step (busy [.unitTurn .cu]))).map (fun t => t.cu.phase) = some .notify ∧
      (busy [.unitTurn .cu]).agenda.head? = some (.unitTurn .cu) := by decide +kernel

/-- A step that records a fault. -/
theorem test_witness_FaultsNeverRemoved :
    (nextState (step (ready [.busRead 2 .byte]))).map (fun t => t.faults) = some [.busMisuse 2 .byte] := by decide +kernel

theorem test_witness_FaultedRunRefused :
    let s : State := { busy [.unitTurn .cu] with faults := [.busMisuse 2 .byte] }
    s.faults = .busMisuse 2 .byte :: [] ∧ s.agenda.head? ≠ some .reset := by decide

/-- A CU in WRITE whose range ends at the last source address. -/
def atTheEnd (events : List Event) : State :=
  { busy events with
    cu := { (busy []).cu with lat := { op := .color, fmt := .uyvy, src := 0xFFFFFFFC, w := 2, h := 1 } } }

/-- 70_reset_and_hazards R122, 60_exceptions R104: a MemWrite into a busy unit's range that ends at 0xFFFF_FFFF. -/
theorem test_sourceModified_atTheEnd :
    (nextState (step (atTheEnd [.memWrite16 0xFFFFFFFF 1]))).map (fun t => t.faults) = some [.sourceModified .cu 0xFFFFFFFF] ∧
      (nextState (step (atTheEnd [.memWrite8 0xFFFFFFFF 1]))).map (fun t => t.faults) = some [.sourceModified .cu 0xFFFFFFFF] := by
  decide +kernel

/-- The steps that go on, the one that faults and the one that is refused. -/
theorem test_witness_StepStopsOnlyThere :
    (nextState (step (start [.memWrite16 0xFFFFFFFE 1]))).isSome = true ∧
      InBusyRange (atTheEnd [.memWrite16 0xFFFFFFFF 1]) .cu 0xFFFFFFFF ∧
      nextState (step (start [.memWrite16 0xFFFFFFFF 1])) = none ∧
      nextState (step { start [.unitTurn .cu] with faults := [.busMisuse 2 .byte] }) = none ∧
      (nextState (step { start [.reset] with faults := [.busMisuse 2 .byte] })).isSome = true :=
  ⟨by decide +kernel, ⟨by decide, by decide, by decide⟩, by decide +kernel, by decide +kernel, by decide +kernel⟩

theorem test_witness_ResetEvent : (busy [.reset]).agenda = .reset :: [] := by decide

theorem test_witness_StepKeepsInvariant :
    Inv (busy [.unitTurn .cu]) ∧ (nextState (step (busy [.unitTurn .cu]))).isSome = true := ⟨inv_busy _, by decide +kernel⟩

/-- A transition of each unit. -/
theorem test_witness_PhaseTransitionsLegal :
    Inv (busy [ackEvent .du 2]) ∧
      (nextState (step (busy [ackEvent .du 2]))).map (fun t => (t.unit .du).phase) = some .idle ∧
      Inv (busy [.unitTurn .cu]) ∧
      (nextState (step (busy [.unitTurn .cu]))).map (fun t => (t.unit .cu).phase) = some .notify :=
  ⟨inv_busy _, by decide +kernel, inv_busy _, by decide +kernel⟩

/-- Both clauses: a raster that is allocated stays so, and a first frame allocates it. -/
theorem test_witness_RasterDimensionsFixed :
    ((busy [.unitTurn .cu]).unit .cu).allocW ≠ 0 ∧ (busy [.unitTurn .cu]).agenda.head? ≠ some .reset ∧
      (nextState (step (ready [commandEvent .du 0x02000000]))).map (fun t => ((t.unit .du).allocW, (t.unit .du).allocH)) =
        some (1, 1) ∧
      ((ready []).unit .du).allocW = 0 := by decide +kernel

theorem test_witness_RasterChangesOnlyAtWriteStep :
    (nextState (step (busy [.unitTurn .cu]))).map (fun t => decide ((t.unit .cu).raster ≠ (busy []).cu.raster)) = some true := by
  decide +kernel

theorem test_witness_BusyKeepsStatusAndLatch :
    ((busy [.unitTurn .cu]).unit .cu).phase ≠ .idle ∧
      (nextState (step (busy [.unitTurn .cu]))).map (fun t => decide ((t.unit .cu).phase ≠ .idle)) = some true := by decide +kernel

/-- Two states that agree on the CU only. -/
theorem test_witness_UnitsIndependent :
    let s := busy [.unitTurn .cu]
    let t : State := { busy [.unitTurn .cu] with du := UnitState.reset }
    FaultFree s ∧ FaultFree t ∧ s.agenda = .unitTurn .cu :: [] ∧ t.agenda = .unitTurn .cu :: [] ∧ s.unit .cu = t.unit .cu ∧
      s.du ≠ t.du ∧ s.params = t.params ∧ s.srcMem = t.srcMem ∧ s.frameCount = t.frameCount ∧
      (nextState (step s)).isSome = true ∧ (nextState (step t)).isSome = true := by decide +kernel

theorem test_witness_UnitsRunOn : Inv (busy []) ∧ FaultFree (busy []) ∧ (busy []).agenda = [] :=
  ⟨inv_busy _, by decide, by decide⟩

/-- The last byte of a window that the raster fills. -/
theorem test_witness_LiveBytesFitWindow :
    Inv (largest []) ∧ 2 ^ 21 - 1 < liveBytes ((largest []).unit .cu) := ⟨inv_largest _, by decide⟩

end Sys2Proof.Tests
end

section
/-! Source memory is the hosts' (20_memory R40): what each kind of step but a host's MemWrite leaves of it. -/

namespace Sys2Proof.Machine

/-! ### Commands -/

theorem issue_srcMem {c : Word} {k : State → State} {s : State} (hk : (k s).srcMem = s.srcMem) :
    (issue c k s).srcMem = s.srcMem := by
  by_cases hi : (s.unit s.port).phase = .idle
  · rw [issue_idle c k hi, hk]
  · rw [issue_busy c k hi, recordFault_srcMem]

@[simp] theorem illegalCommand_srcMem (c : Word) (s : State) : (illegalCommand c s).srcMem = s.srcMem :=
  issue_srcMem (raiseStatus_srcMem _ s)

@[simp] theorem colorAcceptStep_srcMem (fmt : PixelFormat) (s : State) : (colorAcceptStep fmt s).srcMem = s.srcMem := by
  obtain ⟨code, -, he⟩ | ⟨-, he⟩ := colorAcceptStep_cases fmt s
  · rw [he, raiseStatus_srcMem]
  · rw [he, acceptColor]

@[simp] theorem depthAcceptStep_srcMem (s : State) : (depthAcceptStep s).srcMem = s.srcMem := by
  obtain ⟨code, -, he⟩ | ⟨-, he⟩ := depthAcceptStep_cases s
  · rw [he, raiseStatus_srcMem]
  · rw [he, acceptDepth]

/-- No command stores to source memory, whatever its unit is doing. -/
theorem exec_srcMem {i : Instr} {s t : State} (h : exec i s = .next t) : t.srcMem = s.srcMem := by
  by_cases hi : (s.unit s.port).phase = .idle
  · cases i with
    | decodeColor fmt =>
      rw [exec_decodeColor_idle fmt hi] at h
      cases h
      split
      · exact colorAcceptStep_srcMem fmt s
      · exact raiseStatus_srcMem _ s
    | decodeDepth =>
      rw [exec_decodeDepth_idle hi] at h
      cases h
      split
      · exact depthAcceptStep_srcMem s
      · exact raiseStatus_srcMem _ s
    | subscribe sink =>
      rw [exec_subscribe_idle sink hi] at h
      cases h
      exact modifyUnit_srcMem s _ _
    | unsubscribe handle =>
      rw [exec_unsubscribe_idle handle hi] at h
      cases h
      exact modifyUnit_srcMem s _ _
  · rw [exec_busy i hi] at h
    cases h
    exact recordFault_srcMem _ s

/-! ### Unit steps, BUS reads and recorded faults -/

@[simp] theorem unitStep_srcMem (u : UnitId) (s : State) : (unitStep u s).srcMem = s.srcMem := by
  unfold unitStep
  split
  case h_1 => rfl
  all_goals exact modifyUnit_srcMem s u _

@[simp] theorem freeRun_srcMem (s : State) : (freeRun s).srcMem = s.srcMem := by
  unfold freeRun
  split
  · rw [unitStep_srcMem]
  · split
    all_goals exact unitStep_srcMem _ s

@[simp] theorem busRead_srcMem (a : BusAddr) (n : Width) (s : State) : (busRead a n s).srcMem = s.srcMem := by
  unfold busRead
  split
  · exact recordFault_srcMem _ s
  · rfl

@[simp] theorem recordFaults_srcMem (fs : List ModelFault) (s : State) : (recordFaults fs s).srcMem = s.srcMem := by
  obtain ⟨l, he, -⟩ := recordFaults_eq fs s
  rw [he]

@[simp] theorem resetBlock_srcMem (s : State) : (resetBlock s).srcMem = s.srcMem := rfl

/-! ### Every step -/

/-- Source memory after a step is the old one, or the next event is a host's MemWrite. -/
theorem step_srcMem {s t : State} (h : step s = .next t) :
    t.srcMem = s.srcMem ∨
      ∃ a, (∃ v, s.agenda.head? = some (.memWrite8 a v)) ∨ ∃ v, s.agenda.head? = some (.memWrite16 a v) := by
  cases step_kind h with
  | stored e a bytes rest hf ha he hk hs =>
    refine .inr ⟨a, ?_⟩
    obtain ⟨v, rfl⟩ | ⟨v, rfl⟩ := he
    · exact .inl ⟨v, by rw [ha]; rfl⟩
    · exact .inr ⟨v, by rw [ha]; rfl⟩
  | idle hf ha => exact .inl (freeRun_srcMem s)
  | exec u c i rest t hf ha hd hx =>
    have hkept := exec_srcMem hx
    exact .inl hkept
  | illegal u c why rest hf ha hd => exact .inl (illegalCommand_srcMem c _)
  | misuse a n e rest hf ha he hm => exact .inl (recordFault_srcMem _ _)
  | register a v u r rest n hf ha hm hp hr => exact .inl (modifyUnit_srcMem _ u _)
  | ignored a n v rest hf ha hm hp => exact .inl rfl
  | read a n rest hf ha hm => exact .inl (busRead_srcMem a n _)
  | modified e a bytes rest hf ha he hs => exact .inl (recordFaults_srcMem _ _)
  | turn u rest hf ha => exact .inl (unitStep_srcMem u _)
  | reset rest ha => exact .inl (resetBlock_srcMem _)

/-- Settles O43: of the kinds of step, only one that stores a host's MemWrite changes source memory. -/
theorem onlyHostsWriteSource : Obligations.OnlyHostsWriteSource := by
  intro s t h hno8 hno16
  obtain hsame | ⟨a, ⟨v, hv⟩ | ⟨v, hv⟩⟩ := step_srcMem h
  · exact hsame
  · exact absurd hv (hno8 a v)
  · exact absurd hv (hno16 a v)

end Sys2Proof.Machine
end

section
/-! What each operation on one unit can do, said once: the branches of SUBSCRIBE and UNSUBSCRIBE (42_notifier R91, R92), of a
unit's own step in NOTIFY (R94, R98), and of a register write with a sink's acknowledgement (R96, R97, R99). -/

namespace Sys2Proof.Machine

theorem subscribeUnit_cases (P : Config.Params) (sink : Byte) (U : UnitState) :
    (∃ code, subscribeUnit P sink U = { U with result := 0, lastStatus := code }) ∨
      (sink.toNat < P.sinkCount ∧ U.subs.length ≠ P.subMax ∧ U.nextHandle ≠ 65536 ∧
        subscribeUnit P sink U =
          { U with
            nextHandle := U.nextHandle + 1
            subs := U.subs ++ [{ handle := BitVec.ofNat 16 U.nextHandle, sink := sink }]
            result := BitVec.ofNat 16 U.nextHandle
            lastStatus := .ok }) := by
  unfold subscribeUnit
  cases hr : subscribeReject P U sink with
  | some code => exact .inl ⟨code, rfl⟩
  | none =>
    unfold subscribeReject at hr
    split at hr
    · cases hr
    split at hr
    · cases hr
    split at hr
    · cases hr
    · exact .inr ⟨by omega, ‹_›, ‹_›, rfl⟩

theorem unsubscribeUnit_cases (handle : Half) (U : UnitState) :
    unsubscribeUnit handle U = { U with lastStatus := .noSuchSubscriber } ∨
      unsubscribeUnit handle U = { U with subs := U.subs.filter (fun e => e.handle != handle), lastStatus := .ok } := by
  unfold unsubscribeUnit
  split
  · exact .inl rfl
  · exact .inr rfl

theorem notifyStep_cases (U : UnitState) :
    notifyStep U = U ∨ (∃ e, U.pend = none ∧ U.subs[U.nidx]? = some e ∧ notifyStep U = emitChanged e U) ∨
      (U.pend = none ∧ notifyStep U = completeDecode U) := by
  unfold notifyStep
  split
  · exact .inl rfl
  · split
    · exact .inr (.inl ⟨_, ‹_›, ‹_›, rfl⟩)
    · split
      · exact .inr (.inr ⟨‹_›, rfl⟩)
      · exact .inl rfl

/-- A register write changes at most the operand registers (10_state R19, R20), or takes the pending event (R26). -/
theorem writeRegister_cases (r : Register) (v : Word) (U : UnitState) :
    (∃ src dim, writeRegister r v U = { U with srcAddr := src, frameDim := dim }) ∨
      (∃ e, U.pend = some e ∧ writeRegister r v U = ackOk U) ∨
      (∃ e, U.pend = some e ∧ r = .ack ∧ v.extractLsb' 0 2 = (2 : BitVec 2) ∧ writeRegister r v U = ackFail e U) := by
  cases r with
  | srcAddr => exact .inl ⟨v, U.frameDim, rfl⟩
  | frameDim => exact .inl ⟨U.srcAddr, v, rfl⟩
  | ack =>
    have hack : writeRegister .ack v U = writeAck v U := rfl
    rw [hack]
    unfold writeAck
    split
    · exact .inl ⟨U.srcAddr, U.frameDim, rfl⟩
    · split
      · exact .inr (.inl ⟨_, ‹_›, rfl⟩)
      · split
        · exact .inr (.inr ⟨_, ‹_›, rfl, ‹_›, rfl⟩)
        · exact .inl ⟨U.srcAddr, U.frameDim, rfl⟩
  | _ => exact .inl ⟨U.srcAddr, U.frameDim, rfl⟩

/-- A unit's turn changes that unit only. -/
theorem unitStep_eq_modifyUnit (u : UnitId) (s : State) : ∃ f, unitStep u s = s.modifyUnit u f := by
  unfold unitStep
  split
  · exact ⟨id, by cases u <;> rfl⟩
  · exact ⟨_, rfl⟩
  · exact ⟨_, rfl⟩

end Sys2Proof.Machine
end

section
/-! The stored frame is as long as the raster (10_state R31, R34). -/

namespace Sys2Proof.Machine

theorem length_flatMap_range {α : Type} (n k : Nat) (f : Nat → List α) (h : ∀ i, (f i).length = k) :
    ((List.range n).flatMap f).length = n * k := by
  simp [List.length_flatMap, h, List.map_const']

@[simp] theorem packedFrame_length (m : Memory) (src n : Nat) : (packedFrame m src n).length = n * 4 :=
  length_flatMap_range n 4 _ fun _ => rfl

@[simp] theorem uyvyFrame_length (numerics : Config.CscNumerics) (frame : Nat) (m : Memory) (src n : Nat) :
    (uyvyFrame numerics frame m src n).length = n / 2 * 8 :=
  length_flatMap_range (n / 2) 8 _ fun _ => rfl

@[simp] theorem depthFrame_length (s : State) (l : Latch) : (depthFrame s l).length = l.w.toNat * l.h.toNat * 4 :=
  length_flatMap_range _ 4 _ fun _ => rfl

end Sys2Proof.Machine

namespace Sys2Proof.Safety

open Sys2Proof.Machine

theorem newFrame_length {s : State} {u : UnitId} (h : BusyInv u (s.unit u)) :
    (newFrame s u).length = liveBytes (s.unit u) := by
  obtain ⟨-, hw, hh, -, hfmt, -⟩ := h
  have hlive : liveBytes (s.unit u) = (s.unit u).lat.w.toNat * (s.unit u).lat.h.toNat * 4 := by
    rw [liveBytes, hw, hh]; ring
  rw [hlive]
  cases u with
  | du => exact depthFrame_length s _
  | cu =>
    obtain hp | ⟨-, hy, heven⟩ := hfmt
    · simp only [unit_cu] at hp
      simp only [newFrame, colorFrame, hp, packedFrame_length, unit_cu]
    · simp only [unit_cu] at hy heven
      have heven' : s.cu.lat.w.toNat * s.cu.lat.h.toNat % 2 = 0 := by simp [Nat.mul_mod, heven]
      simp only [newFrame, colorFrame, hy, uyvyFrame_length, unit_cu]
      omega

end Sys2Proof.Safety
end

section
/-! Every operation on a unit keeps the invariant of that unit. -/

namespace Sys2Proof.Safety

open Sys2Proof.Machine

theorem unitInv_reset (P : Config.Params) (u : UnitId) : UnitInv P u UnitState.reset := by
  constructor <;> simp [UnitState.reset]

/-- What holds of a busy unit speaks of its latch and its allocation only. -/
theorem BusyInv.congr {u : UnitId} {U V : UnitState} (h : BusyInv u U) (hl : V.lat = U.lat) (hw : V.allocW = U.allocW)
    (hh : V.allocH = U.allocH) : BusyInv u V := by
  obtain ⟨halloc, hlatW, hlatH, hop, hfmt, hsrc⟩ := h
  constructor <;> simpa only [hl, hw, hh]

namespace UnitInv

variable {P : Config.Params} {u : UnitId} {U : UnitState}

/-- The invariant does not look at LAST_STATUS, RESULT, FAIL_HANDLE and the operand registers. -/
theorem unseen (h : UnitInv P u U) (code : Status) (result failHandle : Half) (src dim : Word) :
    UnitInv P u
      { U with lastStatus := code, result := result, failHandle := failHandle, srcAddr := src, frameDim := dim } :=
  ⟨h.subsBound, h.handlesDistinct, h.handlesIssued, h.sinksExist, h.nextHandleRange, h.nidxRange, h.nidxInTable,
    h.allocTogether, h.allocFits, fun hp => (h.busy hp).congr rfl rfl rfl, h.rasterWhole, h.pending⟩

theorem pend_none (h : UnitInv P u U) (hp : U.phase ≠ .notify) : U.pend = none := by
  cases he : U.pend with
  | none => rfl
  | some e => exact absurd (h.pending e he).1 hp

/-- A raster is whole once its unit has left WRITE. -/
theorem rasterWhole_of_notify (h : UnitInv P u U) (hp : U.phase = .notify) :
    U.allocW ≠ 0 ∧ U.raster.length = liveBytes U := by
  obtain hw | ⟨-, h0 | hwrite⟩ := h.rasterWhole
  · exact hw
  · exact absurd h0 (h.busy (by simp [hp])).allocated
  · simp [hp] at hwrite

/-- A unit that goes back to IDLE from NOTIFY, its event taken (42_notifier R97, R98). -/
theorem toIdle (h : UnitInv P u U) (hp : U.phase = .notify) : UnitInv P u { U with phase := .idle, pend := none } :=
  { h with
    nidxInTable := nofun
    busy := fun hi => absurd rfl hi
    rasterWhole := .inl (h.rasterWhole_of_notify hp)
    pending := nofun }

/-- 40_color_decode R68, 41_depth_decode R80. -/
theorem latched {fmt : PixelFormat} {pairs : Bool} {bpp : Nat} (h : UnitInv P u U) (hi : U.phase = .idle)
    (passed : frameReject P U pairs bpp = none)
    (kind : (u = .cu ∧ fmt = .packedBgr32 ∧ bpp = 4) ∨ (u = .cu ∧ fmt = .uyvy ∧ bpp = 2 ∧ pairs = true) ∨
      (u = .du ∧ fmt = .packedBgr32 ∧ bpp = 2)) :
    UnitInv P u (latchDecode (decodeOpOf u) fmt U) := by
  obtain ⟨hw0, hh0, hwmax, hhmax, heven, hsrc, hdim⟩ := frameReject_none passed
  obtain ⟨haw, hah⟩ := latchDecode_alloc (decodeOpOf u) fmt passed
  have hwne : frameW U ≠ 0 := fun h0 => hw0 (by simp [h0])
  have hhne : frameH U ≠ 0 := fun h0 => hh0 (by simp [h0])
  refine { h with
    nidxInTable := nofun, allocTogether := ?_, allocFits := ?_, busy := fun _ => ?_, rasterWhole := ?_, pending := ?_ }
  · rw [haw, hah]; exact iff_of_false hwne hhne
  · rw [haw, hah]; exact ⟨hwmax, hhmax⟩
  · refine ⟨by rwa [haw], haw.symm, hah.symm, rfl, ?_, ?_⟩
    · obtain ⟨-, hf, -⟩ | ⟨hu, hf, -, hp⟩ | ⟨-, hf, -⟩ := kind
      · exact .inl hf
      · exact .inr ⟨hu, hf, heven hp⟩
      · exact .inl hf
    · have hlen : (latchDecode (decodeOpOf u) fmt U).lat.length = (frameW U).toNat * (frameH U).toNat * bpp := by
        obtain ⟨rfl, rfl, rfl⟩ | ⟨rfl, rfl, rfl, -⟩ | ⟨rfl, rfl, rfl⟩ := kind
        all_goals rfl
      rw [hlen]
      simp only [latchDecode]
      omega
  · obtain ⟨ha, hlen⟩ | ⟨hr, -⟩ := h.rasterWhole
    · refine .inl ⟨by rwa [haw], hlen.trans ?_⟩
      obtain h0 | ⟨hw, hh⟩ := hdim
      · exact absurd h0 ha
      · simp only [liveBytes, haw, hah, hw, hh]
    · exact .inr ⟨hr, .inr rfl⟩
  · intro e he
    have hnone : (latchDecode (decodeOpOf u) fmt U).pend = none := h.pend_none (by simp [hi])
    rw [hnone] at he
    cases he

/-- 42_notifier R91: the new entry's handle is above every handle issued before. -/
theorem subscribed (h : UnitInv P u U) (hi : U.phase = .idle) (sink : Byte) : UnitInv P u (subscribeUnit P sink U) := by
  obtain ⟨code, he⟩ | ⟨hsink, hfull, hlast, he⟩ := subscribeUnit_cases P sink U
  · rw [he]
    exact h.unseen code 0 _ _ _
  · obtain ⟨hn1, hn2⟩ := h.nextHandleRange
    have hnew : (BitVec.ofNat 16 U.nextHandle).toNat = U.nextHandle := by
      rw [BitVec.toNat_ofNat]; omega
    have hbound := h.subsBound
    have hfresh : BitVec.ofNat 16 U.nextHandle ∉ U.subs.map Subscription.handle := by
      intro hmem
      obtain ⟨e, hmem, heq⟩ := List.mem_map.1 hmem
      have hlt := (h.handlesIssued e hmem).2
      rw [heq, hnew] at hlt
      omega
    rw [he]
    refine { h with
      subsBound := ?_, handlesDistinct := ?_, handlesIssued := ?_, sinksExist := ?_, nextHandleRange := ?_
      nidxInTable := ?_, busy := fun hb => absurd hi hb, pending := ?_ }
    · simp only [List.length_append, List.length_singleton]; omega
    · rw [List.map_append]
      exact h.handlesDistinct.append (List.nodup_singleton _) (by simpa using hfresh)
    · intro e hmem
      obtain hold | rfl := List.mem_append.1 hmem |>.imp_right List.mem_singleton.1
      · have hissued := h.handlesIssued e hold
        exact ⟨hissued.1, by dsimp only; omega⟩
      · simp only [hnew]; omega
    · intro e hmem
      obtain hold | rfl := List.mem_append.1 hmem |>.imp_right List.mem_singleton.1
      · exact h.sinksExist e hold
      · exact hsink
    · dsimp only; omega
    · intro hn; rw [hi] at hn; cases hn
    · intro e hp; rw [h.pend_none (by simp [hi])] at hp; cases hp

/-- 42_notifier R92. -/
theorem unsubscribed (h : UnitInv P u U) (hi : U.phase = .idle) (handle : Half) :
    UnitInv P u (unsubscribeUnit handle U) := by
  obtain he | he := unsubscribeUnit_cases handle U
  · rw [he]
    exact h.unseen _ _ _ _ _
  · have hsub : (U.subs.filter fun e => e.handle != handle).Sublist U.subs := List.filter_sublist
    rw [he]
    refine { h with
      subsBound := hsub.length_le.trans h.subsBound
      handlesDistinct := h.handlesDistinct.sublist (hsub.map _)
      handlesIssued := fun e he => h.handlesIssued e (hsub.subset he)
      sinksExist := fun e he => h.sinksExist e (hsub.subset he)
      nidxInTable := ?_, busy := fun hb => absurd hi hb, pending := ?_ }
    · intro hn; rw [hi] at hn; cases hn
    · intro e hp; rw [h.pend_none (by simp [hi])] at hp; cases hp

/-- 40_color_decode R69, 41_depth_decode R81. -/
theorem written (h : UnitInv P u U) (hp : U.phase = .write) {new : List Byte} (hlen : new.length = liveBytes U) :
    UnitInv P u (storeFrame new U) := by
  have hbusy := h.busy (by simp [hp])
  refine { h with
    nidxRange := Nat.zero_le _, nidxInTable := fun _ => Nat.zero_le _, busy := fun _ => hbusy.congr rfl rfl rfl
    rasterWhole := .inl ⟨hbusy.allocated, hlen⟩, pending := ?_ }
  intro e he
  rw [storeFrame, h.pend_none (by simp [hp])] at he
  cases he

/-- 42_notifier R94, R98. -/
theorem notified (h : UnitInv P u U) (hp : U.phase = .notify) : UnitInv P u (notifyStep U) := by
  obtain he | ⟨e, -, hentry, he⟩ | ⟨hnone, he⟩ := notifyStep_cases U
  · rwa [he]
  · rw [he]
    refine { h with busy := fun hb => (h.busy hb).congr rfl rfl rfl, pending := ?_ }
    intro e' he'
    cases he'
    exact ⟨hp, hentry⟩
  · have hidle : completeDecode U = { U with lastStatus := .ok, phase := .idle, pend := none } := by
      simp [completeDecode, hnone]
    rw [he, hidle]
    exact (h.toIdle hp).unseen .ok _ _ _ _

/-- 10_state R19, R20; 42_notifier R96, R97, R99. -/
theorem registerWritten (h : UnitInv P u U) (r : Register) (v : Word) : UnitInv P u (writeRegister r v U) := by
  obtain ⟨src, dim, he⟩ | ⟨e, hpend, he⟩ | ⟨e, hpend, -, -, he⟩ := writeRegister_cases r v U
  · rw [he]
    exact h.unseen _ _ _ src dim
  · obtain ⟨-, hentry⟩ := h.pending e hpend
    have hlt : U.nidx < U.subs.length := (List.getElem?_eq_some_iff.1 hentry).1
    rw [he]
    exact { h with
      nidxRange := Nat.le_trans hlt h.subsBound, nidxInTable := fun _ => hlt
      busy := fun hb => (h.busy hb).congr rfl rfl rfl, pending := nofun }
  · obtain ⟨hp, -⟩ := h.pending e hpend
    rw [he]
    exact (h.toIdle hp).unseen .subscriberFailure _ e.handle _ _

end UnitInv

/-- Everything a step can make of a unit keeps the unit's invariant. -/
theorem unitInv_of_unitChange {s : State} {u : UnitId} {V : UnitState} (h : UnitInv s.params u (s.unit u))
    (hc : UnitChange u s V) : UnitInv s.params u V := by
  cases hc with
  | same => exact h
  | raised code idle => exact h.unseen code _ _ _ _
  | latched c i rest fmt pairs bpp idle taken meant decodes passed kind => exact h.latched idle passed kind
  | subscribed sink idle => exact h.subscribed idle sink
  | unsubscribed handle idle => exact h.unsubscribed idle handle
  | written turn phase => exact h.written phase (newFrame_length (h.busy (by simp [phase])))
  | notified turn phase => exact h.notified phase
  | register r v rest notCmd ack => exact h.registerWritten r v
  | reset rest taken => exact unitInv_reset _ _

end Sys2Proof.Safety
end

section
/-! What one step can do to the fields the units share, said once beside `UnitChange`: parameters, scratch buffer, source memory
and fault set. -/

namespace Sys2Proof.Safety

open Sys2Proof.Machine

/-- Everything a step from `s` can make of the parameters, the scratch buffer, source memory and the fault set, when it makes `cu`
of the CU. -/
inductive SharedChange (s : State) (cu : UnitState) :
    Config.Params → Option Nat → Memory → List ModelFault → Prop
  | same : SharedChange s cu s.params s.cuScratch s.srcMem s.faults
  | sized (fmt : PixelFormat) (passed : colorReject s.params s.cu fmt = none) (latched : cu = latchDecode .color fmt s.cu) :
      SharedChange s cu s.params (sizeScratch fmt s.cu s.cuScratch) s.srcMem s.faults
  | faulted (l : List ModelFault) (kept : ∀ f ∈ s.faults, f ∈ l) (nodup : s.faults.Nodup → l.Nodup) :
      SharedChange s cu s.params s.cuScratch s.srcMem l
  | stored (a : Nat) (bytes : List Byte) (fits : a + bytes.length ≤ 2 ^ 32) :
      SharedChange s cu s.params s.cuScratch (Memory.writeBytes s.srcMem a bytes) s.faults
  | reset : SharedChange s cu s.params none s.srcMem s.faults

/-- `SharedChange` from `s` to a whole state. -/
abbrev SharedStep (s t : State) : Prop := SharedChange s t.cu t.params t.cuScratch t.srcMem t.faults

/-- `s0` differs from `s` in the model's own bookkeeping only: agenda, port, host data, draws. -/
structure SameBlock (s s0 : State) : Prop where
  cu : s0.cu = s.cu
  params : s0.params = s.params
  cuScratch : s0.cuScratch = s.cuScratch
  srcMem : s0.srcMem = s.srcMem
  faults : s0.faults = s.faults

theorem sameBlock_mk (s : State) (p : UnitId) (a : List Event) (b : Word) (d n : Nat) :
    SameBlock s (State.mk s.params s.cu s.du s.cuScratch s.srcMem s.faults p a b d n) := ⟨rfl, rfl, rfl, rfl, rfl⟩

section

variable {s s0 : State}

theorem SameBlock.modifyUnit (h : SameBlock s s0) (u : UnitId) (f : UnitState → UnitState) :
    SharedStep s (s0.modifyUnit u f) := by
  obtain ⟨-, hp, hsc, hm, hf⟩ := h
  simp only [SharedStep, modifyUnit_params, modifyUnit_cuScratch, modifyUnit_srcMem, modifyUnit_faults, hp, hsc, hm, hf]
  exact .same

theorem SameBlock.recordFaults (h : SameBlock s s0) (fs : List ModelFault) : SharedStep s (recordFaults fs s0) := by
  obtain ⟨l, heq, hold, -, -, hnodup⟩ := recordFaults_eq fs s0
  obtain ⟨-, hp, hsc, hm, hf⟩ := h
  rw [hf] at hold hnodup
  simp only [SharedStep, heq, hp, hsc, hm]
  exact .faulted l hold hnodup

theorem SameBlock.recordFault (h : SameBlock s s0) (f : ModelFault) : SharedStep s (recordFault f s0) :=
  h.recordFaults [f]

theorem SameBlock.unitStep (h : SameBlock s s0) (u : UnitId) : SharedStep s (unitStep u s0) := by
  obtain ⟨f, hf⟩ := unitStep_eq_modifyUnit u s0
  rw [hf]
  exact h.modifyUnit u f

theorem SameBlock.exec (h : SameBlock s s0) {i : Instr} {t : State} (hx : exec i s0 = .next t) : SharedStep s t := by
  by_cases hi : (s0.unit s0.port).phase = .idle
  · cases i with
    | decodeColor fmt =>
      rw [exec_decodeColor_idle fmt hi] at hx
      cases hx
      split
      · obtain ⟨code, -, he⟩ | ⟨hr, he⟩ := colorAcceptStep_cases fmt s0
        · rw [he]; exact h.modifyUnit _ _
        · obtain ⟨hcu, hp, hsc, hm, hf⟩ := h
          rw [hp, hcu] at hr
          simp only [SharedStep, he, acceptColor, hcu, hp, hsc, hm, hf]
          exact .sized fmt hr rfl
      · exact h.modifyUnit _ _
    | decodeDepth =>
      rw [exec_decodeDepth_idle hi] at hx
      cases hx
      split
      · obtain ⟨code, -, he⟩ | ⟨-, he⟩ := depthAcceptStep_cases s0
        · rw [he]; exact h.modifyUnit _ _
        · rw [he]; exact h.modifyUnit .du (latchDecode .depth .packedBgr32)
      · exact h.modifyUnit _ _
    | subscribe sink =>
      rw [exec_subscribe_idle sink hi] at hx
      cases hx
      exact h.modifyUnit _ _
    | unsubscribe handle =>
      rw [exec_unsubscribe_idle handle hi] at hx
      cases hx
      exact h.modifyUnit _ _
  · rw [exec_busy i hi] at hx
    cases hx
    exact h.recordFault _

theorem SameBlock.illegalCommand (h : SameBlock s s0) (c : Word) : SharedStep s (illegalCommand c s0) := by
  by_cases hi : (s0.unit s0.port).phase = .idle
  · rw [Machine.illegalCommand, issue_idle c _ hi]
    exact h.modifyUnit _ _
  · rw [Machine.illegalCommand, issue_busy c _ hi]
    exact h.recordFault _

end

/-- What a step that gives a next state made of the fields the units share. -/
theorem step_sharedChange {s t : State} (h : step s = .next t) : SharedStep s t := by
  cases step_kind h with
  | idle hf ha =>
    unfold freeRun
    split
    · exact (sameBlock_mk s _ _ _ _ _).unitStep _
    · split
      · exact (sameBlock_mk s _ _ _ _ _).unitStep _
      · exact (sameBlock_mk s _ _ _ _ _).unitStep _
  | exec u c i rest t hf ha hd hx => exact (sameBlock_mk s _ _ _ _ _).exec hx
  | illegal u c why rest hf ha hd => exact (sameBlock_mk s _ _ _ _ _).illegalCommand c
  | misuse a n e rest hf ha he hm => exact (sameBlock_mk s _ _ _ _ _).recordFault _
  | register a v u r rest n hf ha hm hp hr => exact (sameBlock_mk s _ _ _ _ _).modifyUnit u _
  | ignored a n v rest hf ha hm hp => exact .same
  | read a n rest hf ha hm => simp only [SharedStep, busRead, hm]; exact .same
  | stored e a bytes rest hf ha he hk hs => exact .stored a.toNat bytes hk
  | modified e a bytes rest hf ha he hs => exact (sameBlock_mk s _ _ _ _ _).recordFaults _
  | turn u rest hf ha => exact (sameBlock_mk s _ _ _ _ _).unitStep u
  | reset rest ha => exact .reset

end Sys2Proof.Safety
end

section
/-! The whole-machine rules of one unit: each is a case analysis over `UnitChange`. -/

namespace Sys2Proof.Safety

open Sys2Proof.Machine

section

variable {s : State} {u : UnitId} {U V : UnitState}

/-- The dimensions of a raster that are set stay, and an accept step sets them to its frame's (10_state R22, R32). -/
def DimensionsFixed (U V : UnitState) : Prop :=
  (U.allocW ≠ 0 → V.allocW = U.allocW ∧ V.allocH = U.allocH) ∧
    ((V.allocW, V.allocH) ≠ (U.allocW, U.allocH) →
      U.phase = .idle ∧ V.phase = .write ∧ V.allocW = frameW U ∧ V.allocH = frameH U)

theorem DimensionsFixed.of_eq (hw : V.allocW = U.allocW) (hh : V.allocH = U.allocH) : DimensionsFixed U V :=
  ⟨fun _ => ⟨hw, hh⟩, fun hne => absurd (by rw [hw, hh]) hne⟩

/-- Only an accept step touches the dimensions of a raster. -/
theorem unitChange_dimensions (h : UnitChange u s V) (hreset : s.agenda.head? ≠ some .reset) :
    DimensionsFixed (s.unit u) V := by
  cases h with
  | latched c i rest fmt pairs bpp idle taken meant decodes passed kind =>
    obtain ⟨haw, hah⟩ := latchDecode_alloc (decodeOpOf u) fmt passed
    exact ⟨fun h0 => ⟨if_neg h0, if_neg h0⟩, fun _ => ⟨idle, rfl, haw, hah⟩⟩
  | same => exact .of_eq rfl rfl
  | raised code idle => exact .of_eq rfl rfl
  | subscribed sink idle =>
    obtain ⟨code, he⟩ | ⟨-, -, -, he⟩ := subscribeUnit_cases s.params sink (s.unit u)
    all_goals rw [he]; exact .of_eq rfl rfl
  | unsubscribed handle idle =>
    obtain he | he := unsubscribeUnit_cases handle (s.unit u)
    all_goals rw [he]; exact .of_eq rfl rfl
  | written turn phase => exact .of_eq rfl rfl
  | notified turn phase =>
    obtain he | ⟨e, -, -, he⟩ | ⟨-, he⟩ := notifyStep_cases (s.unit u)
    all_goals rw [he]; exact .of_eq rfl rfl
  | register r v rest notCmd ack =>
    obtain ⟨src, dim, he⟩ | ⟨e, -, he⟩ | ⟨e, -, -, -, he⟩ := writeRegister_cases r v (s.unit u)
    all_goals rw [he]; exact .of_eq rfl rfl
  | reset rest taken => exact absurd (by rw [taken]; rfl) hreset

/-- The commands need an idle unit, the write and deliver steps leave these fields, and what writes LAST_STATUS in NOTIFY ends the
phase (10_state R18, R21, R33). -/
theorem unitChange_busy (h : UnitChange u s V) (hs : (s.unit u).phase ≠ .idle) (hV : V.phase ≠ .idle) :
    V.lastStatus = (s.unit u).lastStatus ∧ V.result = (s.unit u).result ∧ V.lat = (s.unit u).lat ∧
      V.subs = (s.unit u).subs := by
  cases h with
  | same => exact ⟨rfl, rfl, rfl, rfl⟩
  | raised code idle => exact absurd idle hs
  | latched c i rest fmt pairs bpp idle taken meant decodes passed kind => exact absurd idle hs
  | subscribed sink idle => exact absurd idle hs
  | unsubscribed handle idle => exact absurd idle hs
  | written turn phase => exact ⟨rfl, rfl, rfl, rfl⟩
  | notified turn phase =>
    obtain he | ⟨e, -, -, he⟩ | ⟨-, he⟩ := notifyStep_cases (s.unit u)
    · rw [he]; exact ⟨rfl, rfl, rfl, rfl⟩
    · rw [he]; exact ⟨rfl, rfl, rfl, rfl⟩
    · rw [he] at hV; exact absurd rfl hV
  | register r v rest notCmd ack =>
    obtain ⟨src, dim, he⟩ | ⟨e, -, he⟩ | ⟨e, -, -, -, he⟩ := writeRegister_cases r v (s.unit u)
    · rw [he]; exact ⟨rfl, rfl, rfl, rfl⟩
    · rw [he]; exact ⟨rfl, rfl, rfl, rfl⟩
    · rw [he] at hV; exact absurd rfl hV
  | reset rest taken => exact absurd rfl hV

/-- 10_state R16; the invariant is what says that an acknowledged unit is in NOTIFY. -/
theorem unitChange_phase (hinv : UnitInv s.params u (s.unit u)) (h : UnitChange u s V) :
    PhaseChange u s (s.unit u).phase V.phase := by
  cases h with
  | same => exact .stay _
  | raised code idle => exact .stay _
  | latched c i rest fmt pairs bpp idle taken meant decodes passed kind =>
    rw [idle]
    exact .accept c i (by rw [taken]; rfl) meant decodes
  | subscribed sink idle =>
    obtain ⟨code, he⟩ | ⟨-, -, -, he⟩ := subscribeUnit_cases s.params sink (s.unit u)
    all_goals rw [he]; exact .stay _
  | unsubscribed handle idle =>
    obtain he | he := unsubscribeUnit_cases handle (s.unit u)
    all_goals rw [he]; exact .stay _
  | written turn phase => rw [phase]; exact .written turn
  | notified turn phase =>
    obtain he | ⟨e, -, -, he⟩ | ⟨-, he⟩ := notifyStep_cases (s.unit u)
    · rw [he]; exact .stay _
    · rw [he]; exact .stay _
    · rw [he, phase]; exact .completed turn
  | register r v rest notCmd ack =>
    obtain ⟨src, dim, he⟩ | ⟨e, -, he⟩ | ⟨e, hpend, hr, hcode, he⟩ := writeRegister_cases r v (s.unit u)
    · rw [he]; exact .stay _
    · rw [he]; exact .stay _
    · rw [he, (hinv.pending e hpend).1]
      exact .failed v (by rw [ack hr]; rfl) hcode
  | reset rest taken => exact .reset _ (by rw [taken]; rfl)

end

/-- The invariant of each unit. -/
theorem Inv.unit {s : State} (h : Inv s) (u : UnitId) : UnitInv s.params u (s.unit u) := by
  cases u with
  | cu => exact h.cu
  | du => exact h.du

/-- Settles O52: of the changes a step can make, only an accept step touches the dimensions. -/
theorem rasterDimensionsFixed : Obligations.RasterDimensionsFixed :=
  fun _ _ u h hreset => unitChange_dimensions (step_unitChange h u) hreset

/-- Settles O54: none of the changes a step can make to a unit that stays busy touches these fields. -/
theorem busyKeepsStatusAndLatch : Obligations.BusyKeepsStatusAndLatch :=
  fun _ _ u h hs ht => unitChange_busy (step_unitChange h u) hs ht

/-- Settles O51: each change a step can make to a unit is one of the listed transitions, or none. -/
theorem phaseTransitionsLegal : Obligations.PhaseTransitionsLegal :=
  fun _ _ u hinv h => unitChange_phase (hinv.unit u) (step_unitChange h u)

end Sys2Proof.Safety
end

section
/-! The invariant of a run: it holds after reset, and every step keeps it. -/

namespace Sys2Proof.Safety

open Sys2Proof.Machine

/-- Settles O49: the default parameters are legal, and both units are as reset leaves them. -/
theorem invariantAtReset : Obligations.InvariantAtReset where
  paramsLegal := by decide
  cu := unitInv_reset _ _
  du := unitInv_reset _ _
  srcMem := ⟨.nil, nofun⟩
  faultsDistinct := .nil
  scratch := nofun

/-- The scratch buffer has the size of the CU's raster (10_state R36). -/
def ScratchFits (scratch : Option Nat) (U : UnitState) : Prop :=
  ∀ n, scratch = some n → U.allocW ≠ 0 ∧ n = U.allocW.toNat * U.allocH.toNat

theorem sizeScratch_cases (fmt : PixelFormat) (U : UnitState) (scratch : Option Nat) :
    sizeScratch fmt U scratch = scratch ∨
      (fmt = .uyvy ∧ sizeScratch fmt U scratch = some ((frameW U).toNat * (frameH U).toNat)) := by
  unfold sizeScratch
  split
  · exact .inr ⟨rfl, rfl⟩
  · exact .inl rfl

section

variable {s : State} {cu : UnitState} {P : Config.Params} {scratch : Option Nat} {m : Memory} {faults : List ModelFault}

/-- No step changes the parameters (log 1). -/
theorem SharedChange.params (h : SharedChange s cu P scratch m faults) : P = s.params := by
  cases h <;> rfl

theorem SharedChange.srcMem_wf (h : SharedChange s cu P scratch m faults) (hwf : Memory.wf s.srcMem) : Memory.wf m := by
  cases h with
  | stored a bytes fits => exact writeBytes_wf bytes hwf fits
  | _ => exact hwf

theorem SharedChange.faults_kept (h : SharedChange s cu P scratch m faults) :
    (∀ f ∈ s.faults, f ∈ faults) ∧ (s.faults.Nodup → faults.Nodup) := by
  cases h with
  | faulted l kept nodup => exact ⟨kept, nodup⟩
  | _ => exact ⟨fun _ hf => hf, id⟩

/-- The buffer is sized with the frame that is latched, and fits as long as set dimensions stay. -/
theorem SharedChange.scratchFits (h : SharedChange s cu P scratch m faults) (hfits : ScratchFits s.cuScratch s.cu)
    (hdim : s.cu.allocW ≠ 0 → cu.allocW = s.cu.allocW ∧ cu.allocH = s.cu.allocH) : ScratchFits scratch cu := by
  have hold : ScratchFits s.cuScratch cu := by
    intro n hn
    obtain ⟨h0, rfl⟩ := hfits n hn
    obtain ⟨hw, hh⟩ := hdim h0
    rw [hw, hh]
    exact ⟨h0, rfl⟩
  cases h with
  | sized fmt passed latched =>
    obtain he | ⟨rfl, he⟩ := sizeScratch_cases fmt s.cu s.cuScratch
    · rwa [he]
    · obtain ⟨hw, hh⟩ := latchDecode_alloc .color .uyvy passed
      obtain ⟨hw0, -⟩ := frameReject_none passed
      intro n hn
      rw [he, Option.some.injEq] at hn
      rw [latched, hw, hh]
      exact ⟨fun h0 => hw0 (by rw [h0]; rfl), hn.symm⟩
  | reset => exact nofun
  | _ => exact hold

end

theorem step_scratchFits {s t : State} (hfits : ScratchFits s.cuScratch s.cu) (h : step s = .next t) :
    ScratchFits t.cuScratch t.cu := by
  by_cases hreset : s.agenda.head? = some .reset
  · obtain ⟨rest, ha⟩ := List.head?_eq_some_iff.1 hreset
    rw [step_reset ha] at h
    cases h
    exact nofun
  · exact (step_sharedChange h).scratchFits hfits (rasterDimensionsFixed s t .cu h hreset).1

/-- Settles O50: each part of the invariant is kept by every change a step can make to the fields it speaks of. -/
theorem stepKeepsInvariant : Obligations.StepKeepsInvariant := by
  intro s t hinv h
  have hshared := step_sharedChange h
  have hunit : ∀ u, UnitInv t.params u (t.unit u) := by
    rw [hshared.params]
    exact fun u => unitInv_of_unitChange (hinv.unit u) (step_unitChange h u)
  exact
    { paramsLegal := by rw [hshared.params]; exact hinv.paramsLegal
      cu := hunit .cu
      du := hunit .du
      srcMem := hshared.srcMem_wf hinv.srcMem
      faultsDistinct := hshared.faults_kept.2 hinv.faultsDistinct
      scratch := step_scratchFits hinv.scratch h }

theorem readPlace_faults (s : State) (fs : List ModelFault) (n : Width) (p : Place) :
    readPlace { s with faults := fs } n p = readPlace s n p := by
  cases p with
  | register u r => cases u <;> rfl
  | raster u off => cases u <;> rfl
  | unmapped => rfl

/-- Settles O44: every change of the fault set adds to it, and no read looks at it. -/
theorem faultsNeverRemoved : Obligations.FaultsNeverRemoved :=
  ⟨rfl, fun _ _ h => (step_sharedChange h).faults_kept, readPlace_faults⟩

/-- Settles O47: both units are `UnitState.reset`. -/
theorem resetValues : Obligations.ResetValues := by
  intro u
  refine ⟨UnitState.reset, by cases u <;> rfl, ?_⟩
  simp [UnitState.reset, Status.code, State.reset]

end Sys2Proof.Safety
end

section
/-! What an event makes of one unit as a function of that unit's own state and of what the units share (10_state R14): the other
unit is no argument of it. -/

namespace Sys2Proof.Machine

theorem modifyUnit_unit_eq (s : State) (p u : UnitId) (f : UnitState → UnitState) :
    (s.modifyUnit p f).unit u = if p = u then f (s.unit u) else s.unit u := by
  split
  · subst p; exact modifyUnit_unit s u f
  · exact modifyUnit_unit_other s f (Ne.symm ‹_›)

/-- An accept step's effect on its unit (40_color_decode R68, 41_depth_decode R80). -/
def acceptUnit (reject : Option Status) (op : DecodeOp) (fmt : PixelFormat) (U : UnitState) : UnitState :=
  match reject with
  | some code => { U with lastStatus := code }
  | none => latchDecode op fmt U

/-- A command's effect on the idle unit it is sent to. -/
def commandUnit (P : Config.Params) (u : UnitId) (i : Instr) (U : UnitState) : UnitState :=
  match i with
  | .decodeColor fmt =>
    if u = .cu then acceptUnit (colorReject P U fmt) .color fmt U else { U with lastStatus := .illegalCommand }
  | .decodeDepth =>
    if u = .du then acceptUnit (frameReject P U false depthBpp) .depth .packedBgr32 U
    else { U with lastStatus := .illegalCommand }
  | .subscribe sink => subscribeUnit P sink U
  | .unsubscribe handle => unsubscribeUnit handle U

/-- A command word's effect on the unit it is sent to (30_encoding R60). -/
def wordUnit (P : Config.Params) (u : UnitId) (c : Word) (U : UnitState) : UnitState :=
  if U.phase = .idle then
    match decode c with
    | .instr i => commandUnit P u i U
    | .reject _ => { U with lastStatus := .illegalCommand }
  else U

/-- A BUS write's effect on unit `u` (20_memory R42 to R45). -/
def busWriteUnit (P : Config.Params) (u : UnitId) (a : BusAddr) (n : Width) (v : Word) (U : UnitState) : UnitState :=
  if misused a n then U
  else
    match placeAt a with
    | .register p r => if p = u then (if r = .cmd then wordUnit P u v U else writeRegister r v U) else U
    | .raster _ _ => U
    | .unmapped => U

/-- A turn's effect on its unit, when its write step would store `new` (10_state R16). -/
def turnUnit (new : List Byte) (U : UnitState) : UnitState :=
  match U.phase with
  | .idle => U
  | .write => storeFrame new U
  | .notify => notifyStep U

/-- An event's effect on unit `u` in a run without faults. -/
def eventUnit (P : Config.Params) (new : List Byte) (u : UnitId) (U : UnitState) : Event → UnitState
  | .busWrite a n v => busWriteUnit P u a n v U
  | .busRead _ _ => U
  | .memWrite8 _ _ => U
  | .memWrite16 _ _ => U
  | .unitTurn p => if p = u then turnUnit new U else U
  | .reset => UnitState.reset

/-! ### Commands -/

theorem colorAcceptStep_unit {s : State} (fmt : PixelFormat) (hp : s.port = .cu) (u : UnitId) :
    (colorAcceptStep fmt s).unit u =
      (s.modifyUnit .cu fun U => acceptUnit (colorReject s.params U fmt) .color fmt U).unit u := by
  obtain ⟨code, hr, he⟩ | ⟨hr, he⟩ := colorAcceptStep_cases fmt s
  · simp only [he, raiseStatus, hp, modifyUnit_cu, hr, acceptUnit]
  · simp only [he, modifyUnit_cu, hr, acceptUnit]
    cases u <;> rfl

theorem depthAcceptStep_unit {s : State} (hp : s.port = .du) (u : UnitId) :
    (depthAcceptStep s).unit u =
      (s.modifyUnit .du fun U => acceptUnit (frameReject s.params U false depthBpp) .depth .packedBgr32 U).unit u := by
  obtain ⟨code, hr, he⟩ | ⟨hr, he⟩ := depthAcceptStep_cases s
  · simp only [he, raiseStatus, hp, modifyUnit_du, hr, acceptUnit]
  · simp only [he, acceptDepth, modifyUnit_du, hr, acceptUnit]

theorem exec_unit {i : Instr} {s t : State} (hi : (s.unit s.port).phase = .idle) (h : exec i s = .next t) (u : UnitId) :
    t.unit u = (s.modifyUnit s.port (commandUnit s.params s.port i)).unit u := by
  cases i with
  | decodeColor fmt =>
    rw [exec_decodeColor_idle fmt hi] at h
    cases h
    split
    next hp => simp only [colorAcceptStep_unit fmt hp, hp, modifyUnit_cu, commandUnit, if_true]
    next hp => simp only [raiseStatus, modifyUnit_unit_eq, commandUnit, if_neg hp]
  | decodeDepth =>
    rw [exec_decodeDepth_idle hi] at h
    cases h
    split
    next hp => simp only [depthAcceptStep_unit hp, hp, modifyUnit_du, commandUnit, if_true]
    next hp => simp only [raiseStatus, modifyUnit_unit_eq, commandUnit, if_neg hp]
  | subscribe sink => rw [exec_subscribe_idle sink hi] at h; cases h; rfl
  | unsubscribe handle => rw [exec_unsubscribe_idle handle hi] at h; cases h; rfl

theorem exec_wordUnit {c : Word} {i : Instr} {s t : State} (hd : decode c = .instr i) (h : exec i s = .next t) (u : UnitId) :
    t.unit u = if s.port = u then wordUnit s.params u c (s.unit u) else s.unit u := by
  by_cases hi : (s.unit s.port).phase = .idle
  · rw [exec_unit hi h, modifyUnit_unit_eq]
    split
    · subst u; simp only [wordUnit, hi, hd, if_true]
    · rfl
  · rw [exec_busy i hi] at h
    cases h
    rw [recordFault_unit]
    split
    · subst u; simp only [wordUnit, if_neg hi]
    · rfl

theorem illegalCommand_wordUnit {c : Word} {why : Reject} (hd : decode c = .reject why) (s : State) (u : UnitId) :
    (illegalCommand c s).unit u = if s.port = u then wordUnit s.params u c (s.unit u) else s.unit u := by
  unfold illegalCommand
  by_cases hi : (s.unit s.port).phase = .idle
  · rw [issue_idle c _ hi, raiseStatus, modifyUnit_unit_eq]
    split
    · subst u; simp only [wordUnit, hi, hd, if_true]
    · rfl
  · rw [issue_busy c _ hi, recordFault_unit]
    split
    · subst u; simp only [wordUnit, if_neg hi]
    · rfl

theorem eventUnit_command (P : Config.Params) (new : List Byte) (p u : UnitId) (c : Word) (U : UnitState) :
    eventUnit P new u U (commandEvent p c) = if p = u then wordUnit P u c U else U := by
  simp only [eventUnit, commandEvent, busWriteUnit, misused_cmdAddress, placeAt_cmdAddress, if_true, Bool.false_eq_true,
    if_false]

/-! ### Every event -/

theorem unitStep_turnUnit (p u : UnitId) (s : State) :
    (unitStep p s).unit u = if p = u then turnUnit (newFrame s u) (s.unit u) else s.unit u := by
  by_cases hpu : p = u
  · subst u
    unfold unitStep turnUnit
    cases (s.unit p).phase <;> simp
  · obtain ⟨f, hf⟩ := unitStep_eq_modifyUnit p s
    rw [hf, modifyUnit_unit_eq]
    simp only [hpu, if_false]

/-- What a step's event makes of each unit. -/
theorem step_eventUnit {s t : State} {e : Event} {rest : List Event} (ha : s.agenda = e :: rest) (h : step s = .next t)
    (u : UnitId) : t.unit u = eventUnit s.params (newFrame s u) u (s.unit u) e := by
  cases step_kind h with
  | idle hf ha' => cases ha.symm.trans ha'
  | exec p c i rest' t hf ha' hd hx =>
    cases ha.symm.trans ha'
    rw [eventUnit_command]
    simpa only [unit_mk] using exec_wordUnit hd hx u
  | illegal p c why rest' hf ha' hd =>
    cases ha.symm.trans ha'
    rw [eventUnit_command, illegalCommand_wordUnit hd, unit_mk]
  | misuse a n e' rest' hf ha' he hm =>
    cases ha.symm.trans ha'
    rw [recordFault_unit, unit_mk]
    obtain ⟨v, rfl⟩ | rfl := he
    · simp only [eventUnit, busWriteUnit, hm, if_true]
    · rfl
  | register a v p r rest' n hf ha' hm hp hr =>
    cases ha.symm.trans ha'
    simp only [modifyUnit_unit_eq, unit_mk, eventUnit, busWriteUnit, hm, hp, hr, if_false, Bool.false_eq_true]
  | ignored a n v rest' hf ha' hm hp =>
    cases ha.symm.trans ha'
    simp only [unit_mk, eventUnit, busWriteUnit, hm, Bool.false_eq_true, if_false]
    cases hpl : placeAt a with
    | register p r => exact absurd hpl (hp p r)
    | raster p off => rfl
    | unmapped => rfl
  | read a n rest' hf ha' hm =>
    cases ha.symm.trans ha'
    simp only [busRead, hm, eventUnit, Bool.false_eq_true, if_false, unit_mk]
  | stored e' a bytes rest' hf ha' he hk hs =>
    cases ha.symm.trans ha'
    rw [unit_mk]
    obtain ⟨v, rfl⟩ | ⟨v, rfl⟩ := he
    all_goals rfl
  | modified e' a bytes rest' hf ha' he hs =>
    cases ha.symm.trans ha'
    obtain ⟨l, heq, -⟩ :=
      recordFaults_eq (sourceFaults { s with agenda := rest } a.toNat bytes.length) { s with agenda := rest }
    rw [heq, unit_mk]
    obtain ⟨v, rfl⟩ | ⟨v, rfl⟩ := he
    all_goals rfl
  | turn p rest' hf ha' =>
    cases ha.symm.trans ha'
    rw [unitStep_turnUnit, unit_mk]
    cases u <;> rfl
  | reset rest' ha' =>
    cases ha.symm.trans ha'
    cases u <;> rfl

/-- NEW of a unit is made from its latch, source memory, CSC_NUMERICS and the frame's number (10_state R34). -/
theorem newFrame_congr {s t : State} {u : UnitId} (hu : s.unit u = t.unit u) (hp : s.params = t.params)
    (hm : s.srcMem = t.srcMem) (hc : s.frameCount = t.frameCount) : newFrame s u = newFrame t u := by
  cases u with
  | cu =>
    simp only [unit_cu] at hu
    simp only [newFrame, colorFrame, hu, hp, hm, hc]
  | du =>
    simp only [unit_du] at hu
    simp only [newFrame, depthFrame, hu, hm]

/-- Settles O55: the event's effect on a unit is the same function of the same arguments in both states. -/
theorem unitsIndependent : Obligations.UnitsIndependent := by
  intro s t s' t' u e rest rest' _ _ has hat hu hp hm hc hs ht
  rw [step_eventUnit has hs, step_eventUnit hat ht, newFrame_congr hu hp hm hc, hu, hp]

end Sys2Proof.Machine
end

section
/-! Register accesses (10_state R17 to R27): which register an aligned offset of a window names, what a step with a read or a
write of it is, and the value of each register as a number. -/

namespace Sys2Proof.Machine

/-! ### Addresses -/

theorem toNat_windowAddress {u : UnitId} {off : Nat} (h : off < 0x100) :
    (BitVec.ofNat 24 (windowBase u + off)).toNat = windowBase u + off := by
  have hb : windowBase u ≤ 0x100 := by cases u <;> decide
  rw [BitVec.toNat_ofNat]
  omega

theorem placeAt_windowAddress (u : UnitId) {off : Nat} (h : off < 0x100) :
    placeAt (BitVec.ofNat 24 (windowBase u + off)) = .register u (registerAt off) := by
  unfold placeAt
  rw [toNat_windowAddress h]
  cases u with
  | cu => rw [if_pos (by simpa [windowBase] using h)]; simp [windowBase]
  | du => rw [if_neg (by simp [windowBase]), if_pos (by simp only [windowBase]; omega)]; simp [windowBase]

theorem misused_windowAddress (u : UnitId) {off : Nat} (hal : off % 4 = 0) (h : off < 0x100) :
    misused (BitVec.ofNat 24 (windowBase u + off)) .word = false := by
  have hb : windowBase u % 4 = 0 := by cases u <;> decide
  have hword : (windowBase u + off) % 4 = 0 := by omega
  simp [misused, placeAt_windowAddress u h, toNat_windowAddress h, Width.bytes, hword]

theorem registerAt_reserved {off : Nat} (h : 0x28 ≤ off) : registerAt off = .reserved := by
  unfold registerAt
  split
  case h_11 => rfl
  all_goals omega

/-! ### Steps -/

theorem step_registerRead {s : State} {u : UnitId} {off : Nat} {rest : List Event} (hf : s.faults = []) (hal : off % 4 = 0)
    (ho : off < 0x100) (ha : s.agenda = .busRead (BitVec.ofNat 24 (windowBase u + off)) .word :: rest) :
    step s = .next { s with agenda := rest, busData := readRegister (s.unit u) (registerAt off) } := by
  simp [step_busRead hf ha, busRead, misused_windowAddress u hal ho, placeAt_windowAddress u ho, readPlace, readDraws]

theorem step_registerWrite {s : State} {u : UnitId} {off : Nat} {v : Word} {rest : List Event} (hf : s.faults = [])
    (hal : off % 4 = 0) (ho : off < 0x100) (hcmd : registerAt off ≠ .cmd)
    (ha : s.agenda = .busWrite (BitVec.ofNat 24 (windowBase u + off)) .word v :: rest) :
    step s = .next ({ s with agenda := rest }.modifyUnit u (writeRegister (registerAt off) v)) := by
  have hw : ∀ s0 : State, busWrite (BitVec.ofNat 24 (windowBase u + off)) .word v s0 =
      .answer (.next (s0.modifyUnit u (writeRegister (registerAt off) v))) := by
    intro s0
    simp only [busWrite, misused_windowAddress u hal ho, placeAt_windowAddress u ho]
    generalize registerAt off = r at hcmd
    cases r <;> simp at hcmd ⊢
  simp only [step, nextMove, hf, ha, perform, hw]

theorem modifyUnit_eq_self {s : State} {u : UnitId} {f : UnitState → UnitState} (h : f (s.unit u) = s.unit u) :
    s.modifyUnit u f = s := by
  cases u <;> simp_all

/-- The offsets whose writes do nothing (10_state R18, R21 to R25, R27). -/
theorem registerAt_ignored {off : Nat} (hal : off % 4 = 0) (hcmd : off ≠ 0x00) (hsrc : off ≠ 0x08) (hdim : off ≠ 0x0C)
    (hack : off ≠ 0x24) : registerAt off ≠ .cmd ∧ ∀ v U, writeRegister (registerAt off) v U = U := by
  unfold registerAt
  split
  case h_1 | h_3 | h_4 | h_10 => omega
  all_goals exact ⟨nofun, fun _ _ => rfl⟩

/-- Settles O37: the two operand registers store, every other register but CMD and ACK ignores the write. -/
theorem registerWrites : Obligations.RegisterWrites := by
  intro s u off v rest hf hal ho hcmd hack ha
  by_cases hsrc : off = 0x08
  · subst hsrc
    exact step_registerWrite hf hal ho nofun ha
  rw [if_neg hsrc]
  by_cases hdim : off = 0x0C
  · subst hdim
    exact step_registerWrite hf hal ho nofun ha
  rw [if_neg hdim]
  obtain ⟨hreg, hignored⟩ := registerAt_ignored hal hcmd hsrc hdim hack
  rw [step_registerWrite hf hal ho hreg ha, modifyUnit_eq_self (hignored v _)]

/-! ### The value of a register -/

theorem toNat_append_eq {m n : Nat} (x : BitVec m) (y : BitVec n) : (x ++ y).toNat = x.toNat * 2 ^ n + y.toNat := by
  rw [BitVec.toNat_append, ← Nat.shiftLeft_add_eq_or_of_lt y.isLt, Nat.shiftLeft_eq]

/-- The codes of 60_exceptions R102. -/
theorem status_code_mem (st : Status) : (st, st.code.toNat) ∈
    [(Status.noneYet, 0x00), (.ok, 0x01), (.unsupportedFormat, 0x10), (.dimensionMismatch, 0x11),
      (.subscriberFailure, 0x12), (.invalidGeometry, 0x20), (.sourceRange, 0x21), (.illegalCommand, 0x30),
      (.subscriberTableFull, 0x40), (.handleExhausted, 0x41), (.invalidSink, 0x42), (.noSuchSubscriber, 0x43)] := by
  cases st <;> decide

theorem toNat_ofBool_decide (p : Prop) [Decidable p] : (BitVec.ofBool (decide p)).toNat = if p then 1 else 0 := by
  by_cases hp : p <;> simp [hp]

/-- A zero field above a register's bits adds nothing to its value. -/
theorem toNat_zero_append {m n : Nat} (y : BitVec n) : (0#m ++ y).toNat = y.toNat := by
  simp

/-- 10_state R18. -/
theorem statusRegister_toNat (U : UnitState) :
    (statusRegister U).toNat =
      (if U.phase ≠ .idle then 1 else 0) + (if U.phase = .notify then 2 else 0) + (if U.allocW ≠ 0 then 4 else 0) +
        U.lastStatus.code.toNat * 2 ^ 8 := by
  simp only [statusRegister, busyFlag, notifyingFlag, allocFlag, toNat_append_eq, toNat_ofBool_decide]
  simp only [BitVec.ofNat_eq_ofNat, BitVec.reduceToNat, Nat.reduceAdd, Nat.reducePow, ite_mul, Nat.one_mul, Nat.zero_mul]
  omega

/-- 10_state R23. -/
theorem subCountRegister_toNat {U : UnitState} (h : U.subs.length ≤ 255) :
    (subCountRegister U).toNat = U.subs.length := by
  rw [subCountRegister, BitVec.ofNat_eq_ofNat, toNat_zero_append, BitVec.toNat_ofNat]
  omega

/-- 10_state R25. -/
theorem pendingRegister_toNat {U : UnitState} {e : Subscription} (h : U.pend = some e) :
    (pendingRegister U).toNat = e.handle.toNat + e.sink.toNat * 2 ^ 16 + 2 ^ 31 := by
  simp only [pendingRegister, h, toNat_append_eq]
  simp only [BitVec.ofNat_eq_ofNat, BitVec.reduceToNat, Nat.reduceAdd, Nat.reducePow]
  omega

/-- Settles O36: the step of the read, and the value of each register it can name. -/
theorem registerReadValues : Obligations.RegisterReadValues := by
  intro s u off rest hf hal ho ha
  refine ⟨_, step_registerRead hf hal ho ha, rfl, ?_, ?_, ?_, ?_, ?_, ?_, ?_, ?_, ?_, ?_⟩
  · rintro rfl
    exact ⟨_, status_code_mem _, statusRegister_toNat _⟩
  · rintro rfl; rfl
  · rintro rfl; rfl
  · rintro rfl
    exact toNat_zero_append (s.unit u).result
  · rintro rfl
    exact (toNat_append_eq (s.unit u).allocH (s.unit u).allocW).trans (Nat.add_comm _ _)
  · rintro rfl hlen
    exact subCountRegister_toNat hlen
  · rintro rfl
    exact toNat_zero_append (s.unit u).failHandle
  · rintro rfl hnone
    simp [registerAt, readRegister, pendingRegister, hnone]
  · rintro e rfl he
    exact pendingRegister_toNat he
  · rintro (rfl | rfl | hres)
    · rfl
    · rfl
    · rw [registerAt_reserved hres]; rfl

end Sys2Proof.Machine
end

section
/-! BUS accesses outside the register windows (20_memory R42 to R49): what a step with a read or a write is, which bytes a raster
read is made of, and that reads leave the block alone. -/

namespace Sys2Proof.Machine

/-! ### Addresses -/

theorem placeAt_ne_register {a : BusAddr} (h : 0x200 ≤ a.toNat) (u : UnitId) (r : Register) : placeAt a ≠ .register u r := by
  unfold placeAt
  rw [if_neg (by omega), if_neg (by omega)]
  split
  · nofun
  split
  · nofun
  split
  all_goals nofun

theorem placeAt_unmapped {a : BusAddr} (h : 0x200 ≤ a.toNat) (hout : a.toNat < 0x400000 ∨ 0x800000 ≤ a.toNat) :
    placeAt a = .unmapped := by
  unfold placeAt
  rw [if_neg (by omega), if_neg (by omega)]
  obtain hlow | hhigh := hout
  · rw [if_pos hlow]
  · rw [if_neg (by omega), if_neg (by omega), if_neg (by omega)]

/-- Above the register windows alignment is the only access rule (20_memory R43, R44). -/
theorem misused_above_windows {a : BusAddr} {n : Width} (hal : a.toNat % n.bytes = 0) (h : 0x200 ≤ a.toNat) :
    misused a n = false := by
  unfold misused
  cases hp : placeAt a with
  | register u r => exact absurd hp (placeAt_ne_register h u r)
  | raster u off => simp [hal]
  | unmapped => simp [hal]

theorem toNat_rasterAddress {u : UnitId} {off : Nat} (h : off < 2 ^ 21) :
    (BitVec.ofNat 24 (rasterBase u + off)).toNat = rasterBase u + off := by
  have hb : rasterBase u ≤ 0x600000 := by cases u <;> decide
  rw [BitVec.toNat_ofNat]
  omega

theorem placeAt_rasterAddress (u : UnitId) {off : Nat} (h : off < 2 ^ 21) :
    placeAt (BitVec.ofNat 24 (rasterBase u + off)) = .raster u off := by
  have hbase : rasterBase .cu = 0x400000 ∧ rasterBase .du = 0x600000 := ⟨rfl, rfl⟩
  unfold placeAt
  rw [toNat_rasterAddress h]
  cases u with
  | cu =>
    rw [if_neg (by omega), if_neg (by omega), if_neg (by omega), if_pos (by omega), hbase.1, Nat.add_sub_cancel_left]
  | du =>
    rw [if_neg (by omega), if_neg (by omega), if_neg (by omega), if_neg (by omega), if_pos (by omega), hbase.2,
      Nat.add_sub_cancel_left]

theorem misused_rasterAddress (u : UnitId) {off : Nat} {n : Width} (hal : off % n.bytes = 0) (h : off < 2 ^ 21) :
    misused (BitVec.ofNat 24 (rasterBase u + off)) n = false := by
  have hbase : n.bytes ∣ rasterBase u := by cases u <;> cases n <;> decide
  have hlow : 0x400000 ≤ rasterBase u := by cases u <;> decide
  apply misused_above_windows
  all_goals rw [toNat_rasterAddress h]
  · exact Nat.mod_eq_zero_of_dvd (hbase.add (Nat.dvd_of_mod_eq_zero hal))
  · omega

/-! ### Steps -/

/-- What a read gives is made from the units, the parameters, source memory and the draws; not from the agenda or the data of an
earlier read. -/
theorem readPlace_mk (s : State) (po : UnitId) (a : List Event) (b : Word) (n : Width) (p : Place) :
    readPlace (State.mk s.params s.cu s.du s.cuScratch s.srcMem s.faults po a b s.drawCount s.frameCount) n p =
      readPlace s n p := by
  cases p with
  | register u r => cases u <;> rfl
  | raster u off => cases u <;> rfl
  | unmapped => rfl

theorem readDraws_congr {s t : State} (h : ∀ u, t.unit u = s.unit u) (p : Place) : readDraws t p = readDraws s p := by
  cases p with
  | raster u off => simp only [readDraws, h]
  | register u r => rfl
  | unmapped => rfl

/-- A read that is not misused, whole (20_memory R45, R47). -/
theorem step_read {s : State} {a : BusAddr} {n : Width} {rest : List Event} (hf : s.faults = []) (hm : misused a n = false)
    (ha : s.agenda = .busRead a n :: rest) :
    step s = .next { s with
      agenda := rest, busData := readPlace s n (placeAt a), drawCount := s.drawCount + readDraws s (placeAt a) } := by
  rw [step_busRead hf ha, busRead, hm, readDraws_congr (s := s) (fun u => by rw [unit_mk]), readPlace_mk]
  rfl

/-- Only a read of the raster window of a unit in WRITE uses up a draw. -/
theorem step_read_of_not_racing {s : State} {a : BusAddr} {n : Width} {rest : List Event} (hf : s.faults = [])
    (hm : misused a n = false) (hp : ∀ u off, placeAt a = .raster u off → (s.unit u).phase ≠ .write)
    (ha : s.agenda = .busRead a n :: rest) :
    step s = .next { s with agenda := rest, busData := readPlace s n (placeAt a) } := by
  have hdraws : readDraws s (placeAt a) = 0 := by
    cases hpa : placeAt a with
    | register u r => rfl
    | raster u off => exact if_neg (hp u off hpa)
    | unmapped => rfl
  rw [step_read hf hm ha, hdraws, Nat.add_zero]

/-- A write that is not misused and not in a register window does nothing (20_memory R42, R45). -/
theorem step_ignoredWrite {s : State} {a : BusAddr} {n : Width} {v : Word} {rest : List Event} (hf : s.faults = [])
    (hm : misused a n = false) (hp : ∀ u r, placeAt a ≠ .register u r) (ha : s.agenda = .busWrite a n v :: rest) :
    step s = .next { s with agenda := rest } := by
  have hw : ∀ s0, busWrite a n v s0 = .answer (.next s0) := by
    intro s0
    unfold busWrite
    rw [hm]
    cases hpa : placeAt a with
    | register u r => exact absurd hpa (hp u r)
    | raster u off => rfl
    | unmapped => rfl
  simp only [step, nextMove, hf, ha, perform, hw]

/-- Settles O38: above the register windows no write is of a register, and the read's place is unmapped. -/
theorem unmappedAndRasterWrites : Obligations.UnmappedAndRasterWrites := by
  intro s a n rest hf hal hlow
  have hm := misused_above_windows hal hlow
  refine ⟨fun v ha => step_ignoredWrite hf hm (placeAt_ne_register hlow) ha, fun ha hout => ?_⟩
  have hplace := placeAt_unmapped hlow hout
  rw [step_read_of_not_racing hf hm (by simp [hplace]) ha, hplace]
  rfl

/-- Settles O41: the step of a read is written out by `step_read`. -/
theorem readsHaveNoSideEffect : Obligations.ReadsHaveNoSideEffect := by
  intro s a n rest hf hm ha
  exact ⟨_, step_read hf hm ha, rfl⟩

/-- Settles O58: the first read uses up no draw, so the second is made from what the first was made from. -/
theorem repeatedReadSameData : Obligations.RepeatedReadSameData := by
  intro s a n rest hf hm hplace ha
  let t : State := { s with agenda := .busRead a n :: rest, busData := readPlace s n (placeAt a) }
  have hplace' : ∀ u off, placeAt a = .raster u off → (t.unit u).phase ≠ .write := by simpa only [t, unit_mk] using hplace
  have hsecond : step t = _ := step_read_of_not_racing hf hm hplace' rfl
  rw [readPlace_mk] at hsecond
  exact ⟨t, step_read_of_not_racing hf hm hplace ha, hsecond⟩

/-! ### The bytes of a raster read -/

/-- Byte `k` of a read of `n` bytes, as a number (20_memory R49). -/
def readByte (byteAt : Nat → Byte) (off : Nat) (n : Width) (k : Nat) : Nat :=
  if k < n.bytes then (byteAt (off + k)).toNat else 0

theorem readByte_lt (byteAt : Nat → Byte) (off : Nat) (n : Width) (k : Nat) : readByte byteAt off n k < 256 := by
  unfold readByte
  split
  · exact (byteAt (off + k)).isLt
  · decide

theorem littleEndian_toNat (byteAt : Nat → Byte) (off : Nat) (n : Width) :
    (littleEndian byteAt off n).toNat =
      readByte byteAt off n 0 + readByte byteAt off n 1 * 2 ^ 8 + readByte byteAt off n 2 * 2 ^ 16 +
        readByte byteAt off n 3 * 2 ^ 24 := by
  have hbyte : ∀ i, (byteAt i).toNat < 2 ^ 8 := fun i => (byteAt i).isLt
  have h0 := hbyte off
  have h1 := hbyte (off + 1)
  cases n with
  | byte =>
    simp only [littleEndian, readByte, Width.bytes, BitVec.toNat_setWidth, Nat.reduceLT, reduceIte, Nat.add_zero]
    omega
  | half =>
    simp only [littleEndian, readByte, Width.bytes, BitVec.toNat_setWidth, toNat_append_eq, Nat.reduceLT, reduceIte,
      Nat.add_zero]
    omega
  | word =>
    simp only [littleEndian, readByte, Width.bytes, toNat_append_eq, Nat.reduceLT, reduceIte, Nat.add_zero]
    omega

/-- A digit of a four-digit number in base 256. -/
theorem base256_digit {c : Nat → Nat} (hc : ∀ i, c i < 256) {k : Nat} (hk : k < 4) :
    (c 0 + c 1 * 2 ^ 8 + c 2 * 2 ^ 16 + c 3 * 2 ^ 24) / 2 ^ (8 * k) % 256 = c k := by
  have h0 := hc 0
  have h1 := hc 1
  have h2 := hc 2
  have h3 := hc 3
  interval_cases k
  all_goals omega

theorem littleEndian_byte (byteAt : Nat → Byte) (off : Nat) (n : Width) {k : Nat} (hk : k < 4) :
    (littleEndian byteAt off n).toNat / 2 ^ (8 * k) % 256 = readByte byteAt off n k := by
  rw [littleEndian_toNat, base256_digit (readByte_lt byteAt off n) hk]

/-! ### Raster windows -/

theorem step_rasterRead {s : State} {u : UnitId} {off : Nat} {n : Width} {rest : List Event} (hf : s.faults = [])
    (hal : off % n.bytes = 0) (ho : off < 2 ^ 21)
    (ha : s.agenda = .busRead (BitVec.ofNat 24 (rasterBase u + off)) n :: rest) :
    step s = .next { s with
      agenda := rest, busData := littleEndian (windowByte s u) off n
      drawCount := s.drawCount + if (s.unit u).phase = .write then 1 else 0 } := by
  rw [step_read hf (misused_rasterAddress u hal ho) ha, placeAt_rasterAddress u ho]
  rfl

end Sys2Proof.Machine

namespace Sys2Proof.Safety

open Sys2Proof.Machine

section

variable {P : Config.Params} {u : UnitId} {U : UnitState}

/-- An allocated raster is whole outside the first WRITE phase (10_state R31). -/
theorem UnitInv.raster_length (h : UnitInv P u U) (ha : U.allocW ≠ 0) (hw : U.phase ≠ .write ∨ U.raster ≠ []) :
    U.raster.length = liveBytes U := by
  obtain ⟨-, hlen⟩ | ⟨hnil, h0 | hwrite⟩ := h.rasterWhole
  · exact hlen
  · exact absurd h0 ha
  · exact absurd hnil (hw.resolve_left (absurd hwrite))

/-- The window of 2 MiB holds the largest legal raster (00_scope R7). -/
theorem UnitInv.liveBytes_le (h : UnitInv P u U) (hP : P.Legal) : liveBytes U ≤ 2 ^ 21 := by
  obtain ⟨hw, hh⟩ := h.allocFits
  obtain ⟨-, -, -, -, hlegal, -⟩ := hP
  exact (Nat.mul_le_mul (Nat.mul_le_mul_left 4 hw) hh).trans hlegal

end

/-- Settles O57: legal parameters bound the live region, which then lies in its window of the address map. -/
theorem liveBytesFitWindow : Obligations.LiveBytesFitWindow := by
  intro s u off hinv hlive
  have hfits := (hinv.unit u).liveBytes_le hinv.paramsLegal
  exact ⟨hfits, placeAt_rasterAddress u (hlive.trans_le hfits)⟩

section

variable {s : State} {u : UnitId} {off : Nat}

theorem windowByte_dead (h : ¬off < liveBytes (s.unit u)) : windowByte s u off = 0 :=
  if_neg fun hlive => h hlive.2

/-- A live byte read outside WRITE is the stored byte (20_memory R45). -/
theorem windowByte_settled (hinv : Inv s) (hp : (s.unit u).phase ≠ .write) :
    windowByte s u off =
      if (s.unit u).allocW ≠ 0 ∧ off < liveBytes (s.unit u) then (s.unit u).raster.getD off 0 else 0 := by
  by_cases hlive : (s.unit u).allocW ≠ 0 ∧ off < liveBytes (s.unit u)
  · have hlen : off < (s.unit u).raster.length := by
      rw [(hinv.unit u).raster_length hlive.1 (.inl hp)]; exact hlive.2
    rw [windowByte, if_pos hlive, if_pos hlive, if_neg hp, rasterRead, List.getD_eq_getElem _ _ hlen,
      List.getD_eq_getElem _ _ hlen]
  · rw [windowByte, if_neg hlive, if_neg hlive]

/-- A live byte of a racing read is the old one or the new one (20_memory R48). -/
theorem windowByte_racing (hinv : Inv s) (hp : (s.unit u).phase = .write) (hlive : off < liveBytes (s.unit u))
    (hrace : s.params.raceRead = .oldOrNew) (hold : (s.unit u).raster ≠ []) :
    some (windowByte s u off) = (s.unit u).raster[off]? ∨ some (windowByte s u off) = (newFrame s u)[off]? := by
  have hbusy := (hinv.unit u).busy (by simp [hp])
  have hraster : off < (s.unit u).raster.length := by
    rw [(hinv.unit u).raster_length hbusy.allocated (.inr hold)]; exact hlive
  have hnew : off < (newFrame s u).length := by rw [newFrame_length hbusy]; exact hlive
  have hbyte : windowByte s u off = racingRead s u off := by
    rw [windowByte, if_pos ⟨hbusy.allocated, hlive⟩, if_pos hp]
  rw [hbyte, racingRead, hrace]
  dsimp only
  split
  · right; rw [newByte, List.getD_eq_getElem _ _ hnew, List.getElem?_eq_getElem hnew]
  · left; rw [rasterRead, List.getD_eq_getElem _ _ hraster, List.getElem?_eq_getElem hraster]

end

/-- Settles O39: the digits of the value read are the window's bytes, and those are the stored ones. -/
theorem rasterReadBytes : Obligations.RasterReadBytes := by
  intro s u off n rest hinv hf hp hal ho ha
  have hstep := step_rasterRead hf hal ho ha
  rw [if_neg hp, Nat.add_zero] at hstep
  refine ⟨_, hstep, fun k hk => ?_⟩
  rw [littleEndian_byte _ _ _ hk, readByte, windowByte_settled hinv hp, apply_ite BitVec.toNat]
  rfl

/-- Settles O40: a byte of the value read is a byte of the window where the width covers it, else 0. -/
theorem racingReadOldOrNew : Obligations.RacingReadOldOrNew := by
  intro s u off n rest hinv hf hp hal ho ha
  have hstep := step_rasterRead hf hal ho ha
  rw [if_pos hp] at hstep
  refine ⟨_, hstep, fun k hk => ?_⟩
  rw [littleEndian_byte _ _ _ hk, readByte]
  by_cases hn : k < n.bytes
  · rw [if_pos hn]
    refine ⟨windowByte s u (off + k), rfl, fun hdead => ?_, fun _ hlive => windowByte_racing hinv hp hlive⟩
    exact windowByte_dead fun hlive => hdead ⟨hn, hlive⟩
  · rw [if_neg hn]
    exact ⟨0, rfl, fun _ => rfl, fun hcovered => absurd hcovered hn⟩

/-! ### What changes a raster -/

@[simp] theorem subscribeUnit_raster (P : Config.Params) (sink : Byte) (U : UnitState) :
    (subscribeUnit P sink U).raster = U.raster := by
  obtain ⟨code, he⟩ | ⟨-, -, -, he⟩ := subscribeUnit_cases P sink U
  all_goals exact (congrArg UnitState.raster he).trans rfl

@[simp] theorem unsubscribeUnit_raster (handle : Half) (U : UnitState) : (unsubscribeUnit handle U).raster = U.raster := by
  obtain he | he := unsubscribeUnit_cases handle U
  all_goals exact (congrArg UnitState.raster he).trans rfl

@[simp] theorem notifyStep_raster (U : UnitState) : (notifyStep U).raster = U.raster := by
  obtain he | ⟨e, -, -, he⟩ | ⟨-, he⟩ := notifyStep_cases U
  all_goals exact (congrArg UnitState.raster he).trans rfl

@[simp] theorem writeRegister_raster (r : Register) (v : Word) (U : UnitState) : (writeRegister r v U).raster = U.raster := by
  obtain ⟨src, dim, he⟩ | ⟨e, -, he⟩ | ⟨e, -, -, -, he⟩ := writeRegister_cases r v U
  all_goals exact (congrArg UnitState.raster he).trans rfl

/-- Only the write step and reset touch a raster (20_memory R51). -/
theorem unitChange_raster {s : State} {u : UnitId} {V : UnitState} (h : UnitChange u s V) (hne : V.raster ≠ (s.unit u).raster) :
    s.agenda.head? = some .reset ∨
      (UnitTurn u s ∧ (s.unit u).phase = .write ∧ V.phase = .notify ∧ V.raster = newFrame s u) := by
  cases h with
  | written turn phase => exact .inr ⟨turn, phase, rfl, rfl⟩
  | reset rest taken => exact .inl (by rw [taken]; rfl)
  | same => exact absurd rfl hne
  | raised code idle => exact absurd rfl hne
  | latched c i rest fmt pairs bpp idle taken meant decodes passed kind => exact absurd rfl hne
  | subscribed sink idle => exact absurd (subscribeUnit_raster _ sink _) hne
  | unsubscribed handle idle => exact absurd (unsubscribeUnit_raster handle _) hne
  | notified turn phase => exact absurd (notifyStep_raster _) hne
  | register r v rest notCmd ack => exact absurd (writeRegister_raster r v _) hne

/-- Settles O53: of the changes a step can make to a unit, only the write step and reset touch the raster. -/
theorem rasterChangesOnlyAtWriteStep : Obligations.RasterChangesOnlyAtWriteStep :=
  fun _ _ u h hne => unitChange_raster (step_unitChange h u) hne

end Sys2Proof.Safety
end

section
/-! A DECODE from its CMD write to IDLE (20_memory R51, 42_notifier R101): the accept step, the write step, and a NOTIFY phase in
which every event is acknowledged with OK. -/

namespace Sys2Proof.Safety

open Sys2Proof.Machine

/-! ### The NOTIFY phase with every event acknowledged OK -/

/-- A unit after a NOTIFY phase whose events were all acknowledged OK (42_notifier R98). -/
def notifiedAll (U : UnitState) : UnitState := completeDecode { U with nidx := U.subs.length, pend := none }

/-- A unit whose entry at nidx has been notified and has answered OK (42_notifier R96). -/
def nextEntry (U : UnitState) : UnitState := { U with pend := none, nidx := U.nidx + 1 }

theorem notifyStep_deliver {U : UnitState} {e : Subscription} (hp : U.pend = none) (he : U.subs[U.nidx]? = some e) :
    notifyStep U = emitChanged e U := by
  simp only [notifyStep, hp, he]

theorem notifyStep_complete {U : UnitState} (hp : U.pend = none) (hn : U.nidx = U.subs.length) :
    notifyStep U = completeDecode U := by
  have hend : U.subs[U.nidx]? = none := List.getElem?_eq_none (le_of_eq hn.symm)
  simp only [notifyStep, hp, hend, if_pos hn]

theorem modifyUnit_modifyUnit (s : State) (u : UnitId) (f g : UnitState → UnitState) :
    (s.modifyUnit u f).modifyUnit u g = s.modifyUnit u (g ∘ f) := by cases u <;> rfl

/-- The agenda and a unit are changed independently. -/
theorem modifyUnit_agenda_comm (s : State) (u : UnitId) (f : UnitState → UnitState) (a : List Event) :
    { s.modifyUnit u f with agenda := a } = { s with agenda := a }.modifyUnit u f := by cases u <;> rfl

theorem emitted_of_pend {u : UnitId} {s t : State} {e : Subscription} (h : (s.unit u).pend = some e) : emitted u s t = [] := by
  simp only [emitted, h]

theorem emitted_of_no_pend {u : UnitId} {s t : State} (h : (s.unit u).pend = none) :
    emitted u s t = (t.unit u).pend.toList := by
  simp only [emitted, h]

/-- A delivery and its OK: two steps, one event, the next entry (42_notifier R94, R96). -/
theorem run_okRound {s : State} {u : UnitId} {e : Subscription} {rest : List Event} (hf : s.faults = [])
    (hp : (s.unit u).phase = .notify) (hpend : (s.unit u).pend = none) (he : (s.unit u).subs[(s.unit u).nidx]? = some e)
    (ha : s.agenda = .unitTurn u :: ackEvent u 1 :: rest) (k : Nat) :
    Host.Core.run Sys2Proof.core (k + 2) s =
        Host.Core.run Sys2Proof.core k ({ s with agenda := rest }.modifyUnit u nextEntry) ∧
      changedEvents u (k + 2) s = e :: changedEvents u k ({ s with agenda := rest }.modifyUnit u nextEntry) := by
  have hdeliver := step_notify hf ha hp
  rw [modifyUnit_congr _ u (g := emitChanged e) (by rw [unit_mk]; exact notifyStep_deliver hpend he)] at hdeliver
  generalize hd : State.modifyUnit _ _ _ = d at hdeliver
  have hdpend : (d.unit u).pend = some e := by rw [← hd, modifyUnit_unit]; rfl
  have hack := step_ack (s := d) (u := u) (v := 1) (rest := rest) (by rw [← hd, modifyUnit_faults]; exact hf)
    (by rw [← hd, modifyUnit_agenda])
  have hnext : { d with agenda := rest }.modifyUnit u (writeAck 1) = { s with agenda := rest }.modifyUnit u nextEntry := by
    rw [← hd, modifyUnit_agenda_comm, modifyUnit_modifyUnit]; rfl
  rw [hnext] at hack
  constructor
  · rw [run_succ (k + 1) hdeliver, run_succ k hack]
  · rw [changedEvents_succ u (k + 1) hdeliver, changedEvents_succ u k hack, emitted_of_no_pend hpend,
      emitted_of_pend hdpend, hdpend]
    rfl

/-- A NOTIFY phase from any entry on, every event acknowledged OK, and the complete step (42_notifier R98, R101). -/
theorem run_okRounds {u : UnitId} {rest : List Event} (n : Nat) {s : State} (hf : s.faults = [])
    (hp : (s.unit u).phase = .notify) (hpend : (s.unit u).pend = none) (hn : (s.unit u).nidx + n = (s.unit u).subs.length)
    (ha : s.agenda = okRounds u n ++ .unitTurn u :: rest) :
    Host.Core.run Sys2Proof.core (2 * n + 1) s = .next ({ s with agenda := rest }.modifyUnit u notifiedAll) ∧
      changedEvents u (2 * n + 1) s = (s.unit u).subs.drop (s.unit u).nidx := by
  induction n generalizing s with
  | zero =>
    have hcomplete : step s = .next ({ s with agenda := rest }.modifyUnit u notifiedAll) := by
      rw [step_notify hf ha hp, modifyUnit_congr _ u (g := notifiedAll)]
      rw [unit_mk, notifyStep_complete hpend hn, notifiedAll, ← hn, ← hpend]; rfl
    refine ⟨run_succ 0 hcomplete, ?_⟩
    rw [changedEvents_succ u 0 hcomplete, emitted_of_no_pend hpend, modifyUnit_unit, List.drop_of_length_le (by omega)]
    rfl
  | succ n ih =>
    have hlt : (s.unit u).nidx < (s.unit u).subs.length := by omega
    obtain ⟨hrun, hevents⟩ := run_okRound hf hp hpend (List.getElem?_eq_getElem hlt) ha (2 * n + 1)
    generalize ht : State.modifyUnit _ u nextEntry = t at hrun hevents
    have hunit : t.unit u = nextEntry (s.unit u) := by rw [← ht, modifyUnit_unit, unit_mk]
    obtain ⟨ihrun, ihevents⟩ := ih (s := t) (by rw [← ht, modifyUnit_faults]; exact hf) (by rw [hunit]; exact hp)
      (by rw [hunit]; rfl) (by rw [hunit]; simp only [nextEntry]; omega) (by rw [← ht, modifyUnit_agenda]; rfl)
    have hsteps : 2 * (n + 1) + 1 = 2 * n + 1 + 2 := by omega
    constructor
    · rw [hsteps, hrun, ihrun, ← ht, modifyUnit_agenda_comm, modifyUnit_modifyUnit]
      rfl
    · rw [hsteps, hevents, ihevents, hunit, List.drop_eq_getElem_cons hlt]
      rfl

/-- From WRITE to IDLE: the frame is stored whole, then every entry is notified (40_color_decode R69, 41_depth_decode R81). -/
theorem run_of_write {s : State} {u : UnitId} {rest : List Event} (hf : s.faults = []) (hp : (s.unit u).phase = .write)
    (hpend : (s.unit u).pend = none)
    (ha : s.agenda = .unitTurn u :: (okRounds u (s.unit u).subs.length ++ .unitTurn u :: rest)) :
    Host.Core.run Sys2Proof.core (2 * (s.unit u).subs.length + 2) s =
        .next ({ s with agenda := rest }.modifyUnit u (notifiedAll ∘ storeFrame (newFrame s u))) ∧
      changedEvents u (2 * (s.unit u).subs.length + 2) s = (s.unit u).subs := by
  have hwrite := step_write hf ha hp
  generalize hw : State.modifyUnit _ _ _ = w at hwrite
  have hunit : w.unit u = storeFrame (newFrame s u) (s.unit u) := by rw [← hw, modifyUnit_unit, unit_mk]
  have hwpend : (w.unit u).pend = none := by rw [hunit]; exact hpend
  obtain ⟨hrun, hevents⟩ := run_okRounds (u := u) (rest := rest) (s.unit u).subs.length (s := w)
    (by rw [← hw, modifyUnit_faults]; exact hf) (by rw [hunit]; rfl) hwpend (by rw [hunit]; exact Nat.zero_add _)
    (by rw [← hw, modifyUnit_agenda])
  constructor
  · rw [run_succ _ hwrite, hrun, ← hw, modifyUnit_agenda_comm, modifyUnit_modifyUnit]
  · rw [changedEvents_succ u _ hwrite, hevents, emitted_of_no_pend hpend, hwpend, hunit]
    rfl

/-! ### The accept step -/

/-- A command to an idle unit leaves the agenda and records no fault (30_encoding R60). -/
theorem stepCommand_idle {c : Word} {s t : State} (hi : (s.unit s.port).phase = .idle) (h : stepCommand c s = .next t) :
    t.agenda = s.agenda ∧ t.faults = s.faults := by
  have hraised : ∀ code, (raiseStatus code s).agenda = s.agenda ∧ (raiseStatus code s).faults = s.faults :=
    fun code => ⟨raiseStatus_agenda code s, raiseStatus_faults code s⟩
  unfold stepCommand at h
  cases hd : decode c with
  | reject why =>
    rw [hd] at h
    cases h
    rw [illegalCommand, issue_idle _ _ hi]
    exact hraised _
  | instr i =>
    rw [hd] at h
    dsimp only at h
    cases i with
    | decodeColor fmt =>
      rw [exec_decodeColor_idle fmt hi] at h
      cases h
      split
      · obtain ⟨code, -, he⟩ | ⟨-, he⟩ := colorAcceptStep_cases fmt s
        · rw [he]; exact hraised _
        · rw [he]; exact ⟨rfl, rfl⟩
      · exact hraised _
    | decodeDepth =>
      rw [exec_decodeDepth_idle hi] at h
      cases h
      split
      · obtain ⟨code, -, he⟩ | ⟨-, he⟩ := depthAcceptStep_cases s
        · rw [he]; exact hraised _
        · rw [he]; exact ⟨rfl, rfl⟩
      · exact hraised _
    | subscribe sink =>
      rw [exec_subscribe_idle sink hi] at h
      cases h
      exact ⟨modifyUnit_agenda s _ _, modifyUnit_faults s _ _⟩
    | unsubscribe handle =>
      rw [exec_unsubscribe_idle handle hi] at h
      cases h
      exact ⟨modifyUnit_agenda s _ _, modifyUnit_faults s _ _⟩

/-- A unit that leaves IDLE has accepted a frame: its dimensions are the raster's, and its table is as it was (10_state R16). -/
theorem unitChange_accepted {s : State} {u : UnitId} {V : UnitState} (h : UnitChange u s V) (hi : (s.unit u).phase = .idle)
    (hw : V.phase = .write) :
    V.allocW = frameW (s.unit u) ∧ V.allocH = frameH (s.unit u) ∧ V.subs = (s.unit u).subs ∧ V.pend = (s.unit u).pend := by
  cases h with
  | latched c i rest fmt pairs bpp idle taken meant decodes passed kind =>
    obtain ⟨haw, hah⟩ := latchDecode_alloc (decodeOpOf u) fmt passed
    exact ⟨haw, hah, rfl, rfl⟩
  | same => simp [hi] at hw
  | raised code idle => simp [hi] at hw
  | subscribed sink idle =>
    obtain ⟨code, he⟩ | ⟨-, -, -, he⟩ := subscribeUnit_cases s.params sink (s.unit u)
    all_goals simp [he, hi] at hw
  | unsubscribed handle idle =>
    obtain he | he := unsubscribeUnit_cases handle (s.unit u)
    all_goals simp [he, hi] at hw
  | written turn phase => simp [hi] at phase
  | notified turn phase => simp [hi] at phase
  | register r v rest notCmd ack =>
    obtain ⟨src, dim, he⟩ | ⟨e, -, he⟩ | ⟨e, -, -, -, he⟩ := writeRegister_cases r v (s.unit u)
    · simp [he, hi] at hw
    · simp [he, ackOk, hi] at hw
    · simp [he, ackFail] at hw
  | reset rest taken => simp [UnitState.reset] at hw

/-- Settles O34: the accept step leaves the unit in WRITE with its table, and `run_of_write` is the rest of the run. -/
theorem decodeRunsToCompletion : Obligations.DecodeRunsToCompletion := by
  intro s t u i rest hinv hf hi _ ha haccept hw
  obtain ⟨hagenda, hfaults⟩ := stepCommand_idle (by simpa using hi) ((step_command hf ha).symm.trans haccept)
  obtain ⟨haw, hah, hsubs, hpend⟩ := unitChange_accepted (step_unitChange haccept u) hi hw
  have hsnone : (s.unit u).pend = none := (hinv.unit u).pend_none (by simp [hi])
  have htnone : (t.unit u).pend = none := hpend.trans hsnone
  have hbusy := ((stepKeepsInvariant s t hinv haccept).unit u).busy (by simp [hw])
  have htfree : t.faults = [] := hfaults.trans hf
  obtain ⟨hrun, hevents⟩ := run_of_write (rest := rest) htfree hw htnone (by rw [hsubs]; exact hagenda)
  rw [hsubs] at hrun hevents
  refine ⟨⟨{ t with agenda := rest }.modifyUnit u (notifiedAll ∘ storeFrame (newFrame t u)), ?_⟩, ?_⟩
  · simp only [FaultFree, modifyUnit_unit, modifyUnit_agenda, modifyUnit_faults, unit_mk, true_and]
    exact ⟨(run_succ _ haccept).trans hrun, rfl, rfl, rfl, newFrame_length hbusy, haw, hah, htfree⟩
  · rw [changedEvents_succ u _ haccept, hevents, emitted_of_no_pend hsnone, htnone]
    rfl

end Sys2Proof.Safety
end

section
/-! The command encoding (30_encoding R57 to R65): what the decoder answers for a word whose columns are known, and back from
its answer to the word; the masks of the dispatch (R60) as statements about the columns; illegal words (R62). -/

namespace Sys2Proof

/-! ### Words by their columns -/

theorem eq_packFields_iff {c : Word} {op upper middle low : Byte} :
    c = packFields op upper middle low ↔ opField c = op ∧ upperField c = upper ∧ middleField c = middle ∧ lowField c = low := by
  constructor
  · rintro rfl; simp
  · rintro ⟨rfl, rfl, rfl, rfl⟩; exact (packFields_columns c).symm

@[simp] theorem opField_and (c d : Word) : opField (c &&& d) = opField c &&& opField d := BitVec.extractLsb'_and
@[simp] theorem upperField_and (c d : Word) : upperField (c &&& d) = upperField c &&& upperField d := BitVec.extractLsb'_and
@[simp] theorem middleField_and (c d : Word) : middleField (c &&& d) = middleField c &&& middleField d :=
  BitVec.extractLsb'_and
@[simp] theorem lowField_and (c d : Word) : lowField (c &&& d) = lowField c &&& lowField d := BitVec.extractLsb'_and

/-- A mask keeps a column whole where it is 0xFF (the literal as `simp` spells it). -/
theorem byte_and_ff (x : Byte) : x &&& 255#8 = x := BitVec.and_allOnes

/-- The mask 0xFFFFFF00 of 30_encoding R60 tests OP and the two columns below it. -/
theorem and_mask24_iff (c : Word) (op : Byte) :
    c &&& packFields 0xFF 0xFF 0xFF 0 = packFields op 0 0 0 ↔ opField c = op ∧ upperField c = 0 ∧ middleField c = 0 := by
  simp [eq_packFields_iff, byte_and_ff]

/-- The mask 0xFFFF0000 of 30_encoding R60 tests OP and the column below it. -/
theorem and_mask16_iff (c : Word) (op : Byte) :
    c &&& packFields 0xFF 0xFF 0 0 = packFields op 0 0 0 ↔ opField c = op ∧ upperField c = 0 := by
  simp [eq_packFields_iff, byte_and_ff]

theorem handleField_high (c : Word) : (handleField c).extractLsb' 8 8 = middleField c := by
  simp [handleField, middleField]

theorem handleField_low (c : Word) : (handleField c).extractLsb' 0 8 = lowField c := by
  simp [handleField, lowField]

theorem extract_op (c : Word) : c.extractLsb' 24 8 = opField c := rfl

theorem extract_upper (c : Word) : c.extractLsb' 16 8 = upperField c := rfl

/-- Bits [23:8], reserved in DECODE_COLOR and SUBSCRIBE. -/
theorem extract_upper_middle (c : Word) : c.extractLsb' 8 16 = upperField c ++ middleField c :=
  (BitVec.extractLsb'_append_extractLsb'_eq_extractLsb' (show 16 = 8 + 8 from rfl)).symm

/-- Bits [23:0], reserved in DECODE_DEPTH. -/
theorem extract_below_op (c : Word) : c.extractLsb' 0 24 = upperField c ++ handleField c :=
  (BitVec.extractLsb'_append_extractLsb'_eq_extractLsb' (show 16 = 0 + 16 from rfl)).symm

/-! ### The decoder -/

theorem decode_decodeColor {c : Word} (hop : opField c = 0x01) (hu : upperField c = 0) (hm : middleField c = 0) :
    decode c = .instr (.decodeColor (formatOfTag (lowField c))) := by
  simp [decode, hop, hu, hm]

theorem decode_decodeDepth {c : Word} (hop : opField c = 0x02) (hu : upperField c = 0) (hm : middleField c = 0)
    (hl : lowField c = 0) : decode c = .instr .decodeDepth := by
  simp [decode, hop, hu, hm, hl]

theorem decode_subscribe {c : Word} (hop : opField c = 0x10) (hu : upperField c = 0) (hm : middleField c = 0) :
    decode c = .instr (.subscribe (lowField c)) := by
  simp [decode, hop, hu, hm]

theorem decode_unsubscribe {c : Word} (hop : opField c = 0x11) (hu : upperField c = 0) :
    decode c = .instr (.unsubscribe (handleField c)) := by
  simp [decode, hop, hu]

/-- Settles O1: the columns of the packed word are the operands, and a well-formed format is its tag's. -/
theorem decodeOfEncode : Obligations.DecodeOfEncode := by
  intro i hi
  cases i with
  | decodeColor fmt =>
    rw [encode, decode_decodeColor (by simp) (by simp) (by simp), lowField_pack, formatOfTag_tagOfFormat hi]
  | decodeDepth => exact decode_decodeDepth (by simp [encode]) (by simp [encode]) (by simp [encode]) (by simp [encode])
  | subscribe sink => rw [encode, decode_subscribe (by simp) (by simp) (by simp), lowField_pack]
  | unsubscribe handle =>
    rw [encode, decode_unsubscribe (by simp) (by simp), handleField_pack, handle_columns]

/-- Settles O2: each branch of the decoder that answers a command has tested every column that is no operand. -/
theorem encodeOfDecode : Obligations.EncodeOfDecode := by
  intro c i h
  unfold decode at h
  split at h
  next hc =>
    obtain ⟨hop, hu, hm⟩ := hc
    cases h
    exact ⟨(eq_packFields_iff.2 ⟨hop, hu, hm, (tagOfFormat_formatOfTag _).symm⟩).symm, formatOfTag_wellFormed _⟩
  split at h
  next hc => cases h; exact ⟨(eq_packFields_iff.2 hc).symm, rfl⟩
  split at h
  next hc =>
    obtain ⟨hop, hu, hm⟩ := hc
    cases h
    exact ⟨(eq_packFields_iff.2 ⟨hop, hu, hm, rfl⟩).symm, rfl⟩
  split at h
  next hc =>
    obtain ⟨hop, hu⟩ := hc
    cases h
    exact ⟨(eq_packFields_iff.2 ⟨hop, hu, (handleField_high c).symm, (handleField_low c).symm⟩).symm, rfl⟩
  split at h <;> cases h

/-- Settles O3: the masks test the columns the decoder tests; a word it does not reject is some command's encoding, which
passes that command's test. -/
theorem decodeAgreesWithMasks : Obligations.DecodeAgreesWithMasks := by
  intro c
  refine ⟨fun h => ?_, fun h => ?_, fun h => ?_, fun h => ?_, fun hcolor hdepth hsub hunsub => ?_⟩
  · obtain ⟨hop, hu, hm⟩ := (and_mask24_iff c 0x01).1 h
    exact decode_decodeColor hop hu hm
  · obtain ⟨hop, hu, hm, hl⟩ := (eq_packFields_iff (op := 0x02) (upper := 0) (middle := 0) (low := 0)).1 h
    exact decode_decodeDepth hop hu hm hl
  · obtain ⟨hop, hu, hm⟩ := (and_mask24_iff c 0x10).1 h
    exact decode_subscribe hop hu hm
  · obtain ⟨hop, hu⟩ := (and_mask16_iff c 0x11).1 h
    exact decode_unsubscribe hop hu
  · cases hd : decode c with
    | reject why => exact ⟨why, rfl⟩
    | instr i =>
      obtain ⟨rfl, -⟩ := encodeOfDecode c i hd
      cases i with
      | decodeColor fmt => exact absurd ((and_mask24_iff _ 0x01).2 (by simp [encode])) hcolor
      | decodeDepth => exact absurd rfl hdepth
      | subscribe sink => exact absurd ((and_mask24_iff _ 0x10).2 (by simp [encode])) hsub
      | unsubscribe handle => exact absurd ((and_mask16_iff _ 0x11).2 (by simp [encode])) hunsub

/-- Settles O4: six of the words are encodings; the other two each fail a test of the decoder. -/
theorem specWordsDecode : Obligations.SpecWordsDecode :=
  ⟨decodeOfEncode (.decodeColor .packedBgr32) rfl, decodeOfEncode (.decodeColor .uyvy) rfl,
    decodeOfEncode (.decodeColor (.unrecognized 255)) rfl, decodeOfEncode .decodeDepth rfl,
    decodeOfEncode (.subscribe 3) rfl, decodeOfEncode (.unsubscribe 65535) rfl, by decide, by decide⟩

end Sys2Proof

namespace Sys2Proof.Machine

/-! ### Dispatch -/

theorem stepCommand_instr {c : Word} {i : Instr} (hd : decode c = .instr i) (s : State) : stepCommand c s = exec i s := by
  simp only [stepCommand, hd]

/-- A word that is no command, or whose command is illegal at the unit, raises IllegalCommand on an idle unit (30_encoding
R62). -/
theorem stepCommand_illegal {c : Word} {s : State} (hi : (s.unit s.port).phase = .idle)
    (hx : ∀ i, decode c = .instr i → exec i s = .next (raiseStatus .illegalCommand s)) :
    stepCommand c s = .next (raiseStatus .illegalCommand s) := by
  cases hd : decode c with
  | instr i => rw [stepCommand_instr hd, hx i hd]
  | reject why => simp only [stepCommand, hd, illegalCommand, issue_idle _ _ hi]

theorem exec_decodeColor_wrongUnit (fmt : PixelFormat) {s : State} (hi : (s.unit s.port).phase = .idle) (hp : s.port = .du) :
    exec (.decodeColor fmt) s = .next (raiseStatus .illegalCommand s) := by
  rw [exec_decodeColor_idle fmt hi, if_neg (by simp [hp])]

theorem exec_decodeDepth_wrongUnit {s : State} (hi : (s.unit s.port).phase = .idle) (hp : s.port = .cu) :
    exec .decodeDepth s = .next (raiseStatus .illegalCommand s) := by
  rw [exec_decodeDepth_idle hi, if_neg (by simp [hp])]

/-- Settles O5: the step decodes the word at its unit, and the word has a meaning. -/
theorem stepRunsDecodedCommand : Obligations.StepRunsDecodedCommand := by
  intro s u c i rest hf ha hd
  rw [step_command hf ha, stepCommand_instr hd]

/-- Settles O7: were the word a command, it would be that command's encoding, whose opcode is known and whose reserved fields
are zero; what is left is a DECODE at the wrong unit. -/
theorem illegalCommandWords : Obligations.IllegalCommandWords := by
  intro s u c rest hf ha hi hbad
  have hidle : (State.unit { s with agenda := rest, port := u } u).phase = .idle := by simpa using hi
  refine (step_command hf ha).trans (stepCommand_illegal hidle fun i hd => ?_)
  obtain ⟨rfl, -⟩ := encodeOfDecode c i hd
  simp only [extract_op, extract_upper, extract_upper_middle, extract_below_op] at hbad
  cases i with
  | decodeColor fmt => exact exec_decodeColor_wrongUnit fmt hidle (by simpa [encode] using hbad)
  | decodeDepth => exact exec_decodeDepth_wrongUnit hidle (by simpa [encode] using hbad)
  | subscribe sink => simp [encode] at hbad
  | unsubscribe handle => simp [encode] at hbad

end Sys2Proof.Machine
end


section
/-! The matrix CSC (40_color_decode R71 to R77): a channel value is a byte, the numerators as real expressions with their
ranges, clamping against truncation, and the pixels of neutral chroma. -/

namespace Sys2Proof.Machine

/-! ### Channels -/

theorem clamp255_range (x : Int) : 0 ≤ clamp255 x ∧ clamp255 x ≤ 255 := by
  unfold clamp255; omega

theorem clamp255_of_nonpos {x : Int} (h : x ≤ 0) : clamp255 x = 0 := by
  unfold clamp255; omega

theorem clamp255_of_range {x : Int} (h0 : 0 ≤ x) (h255 : x ≤ 255) : clamp255 x = x := by
  unfold clamp255; omega

theorem clamp255_of_ge {x : Int} (h : 255 ≤ x) : clamp255 x = 255 := by
  unfold clamp255; omega

theorem channelExact_range (n : Int) : 0 ≤ channelExact n ∧ channelExact n ≤ 255 := clamp255_range _

theorem channelExact_mono {n n' : Int} (h : n ≤ n') : channelExact n ≤ channelExact n' := by
  unfold channelExact clamp255; omega

theorem boundaryPoint_iff (n : Int) : boundaryPoint n = true ↔ n % 1000 = 0 ∧ 1000 ≤ n ∧ n ≤ 255000 := by
  simp [boundaryPoint]

theorem channelExact_of_boundaryPoint {n : Int} (h : boundaryPoint n = true) : channelExact n = n / 1000 := by
  obtain ⟨-, hlo, hhi⟩ := (boundaryPoint_iff n).1 h
  exact clamp255_of_range (by omega) (by omega)

@[simp] theorem channelValue_exact (low : Bool) (n : Int) : channelValue .exact low n = channelExact n := rfl

@[simp] theorem channelValue_high (numerics : Config.CscNumerics) (n : Int) :
    channelValue numerics false n = channelExact n := by
  cases numerics <;> simp [channelValue]

/-- A low draw at a boundary point. -/
theorem channelValue_low {n : Int} (h : boundaryPoint n = true) : channelValue .boundaryEither true n = n / 1000 - 1 := by
  simp [channelValue, h]

/-- Off the boundary points neither the setting nor the draw matters (40_color_decode R75). -/
theorem channelValue_of_not_boundaryPoint (numerics : Config.CscNumerics) (low : Bool) {n : Int}
    (h : boundaryPoint n = false) : channelValue numerics low n = channelExact n := by
  cases numerics <;> simp [channelValue, h]

theorem channelValue_range (numerics : Config.CscNumerics) (low : Bool) (n : Int) :
    0 ≤ channelValue numerics low n ∧ channelValue numerics low n ≤ 255 := by
  cases hb : boundaryPoint n with
  | false => rw [channelValue_of_not_boundaryPoint numerics low hb]; exact channelExact_range n
  | true =>
    have hexact := channelExact_range n
    obtain ⟨-, hlo, hhi⟩ := (boundaryPoint_iff n).1 hb
    cases numerics with
    | exact => exact hexact
    | boundaryEither =>
      cases low with
      | false => rw [channelValue_high]; exact hexact
      | true => rw [channelValue_low hb]; omega

/-- A channel value is stored without wrapping. -/
theorem channelByte_toNat (numerics : Config.CscNumerics) (low : Bool) (n : Int) :
    ((channelByte numerics low n).toNat : Int) = channelValue numerics low n := by
  obtain ⟨hlo, hhi⟩ := channelValue_range numerics low n
  rw [channelByte, BitVec.toNat_ofNat, Nat.mod_eq_of_lt (by omega), Int.toNat_of_nonneg hlo]

/-- Settles O17: both settings clamp nothing at a boundary point, and agree at every other numerator. -/
theorem boundaryEitherDiffersByOne : Obligations.BoundaryEitherDiffersByOne := by
  intro n
  refine ⟨fun hmod hlo hhi => ?_, fun hn low => ?_, fun low => channelValue_exact low n⟩
  · have hb := (boundaryPoint_iff n).2 ⟨hmod, hlo, hhi⟩
    have hexact := channelExact_of_boundaryPoint hb
    exact ⟨(channelValue_high _ n).trans hexact, channelValue_low hb, hexact⟩
  · exact channelValue_of_not_boundaryPoint _ low (Bool.eq_false_iff.2 (mt (boundaryPoint_iff n).1 hn))

/-! ### Numerators -/

theorem numeratorB_range (y u : Byte) : -276928 ≤ numeratorB y u ∧ numeratorB y u ≤ 534482 := by
  have := y.isLt; have := u.isLt
  unfold numeratorB; omega

theorem numeratorG_range (y u v : Byte) : -171532 ≤ numeratorG y u v ∧ numeratorG y u v ≤ 432308 := by
  have := y.isLt; have := u.isLt; have := v.isLt
  unfold numeratorG; omega

theorem numeratorR_range (y v : Byte) : -222912 ≤ numeratorR y v ∧ numeratorR y v ≤ 480888 := by
  have := y.isLt; have := v.isLt
  unfold numeratorR; omega

/-- Settles O15: each range by its lemma, each end at extreme bytes, each channel by `channelByte_toNat`. -/
theorem numeratorRanges : Obligations.NumeratorRanges :=
  ⟨fun y u v => ⟨numeratorB_range y u, numeratorG_range y u v, numeratorR_range y v⟩,
    ⟨0, 0, by decide⟩, ⟨255, 255, by decide⟩, ⟨0, 255, 255, by decide⟩, ⟨255, 0, 0, by decide⟩,
    ⟨0, 0, by decide⟩, ⟨255, 255, by decide⟩, by decide, channelByte_toNat⟩

theorem numeratorB_eq_real (y u : Byte) :
    (numeratorB y u : ℚ) = 1000 * ((1.164 : ℚ) * (y.toNat - 16) + 2.018 * (u.toNat - 128)) := by
  unfold numeratorB; push_cast; ring

theorem numeratorG_eq_real (y u v : Byte) :
    (numeratorG y u v : ℚ) =
      1000 * ((1.164 : ℚ) * (y.toNat - 16) - 0.813 * (v.toNat - 128) - 0.391 * (u.toNat - 128)) := by
  unfold numeratorG; push_cast; ring

theorem numeratorR_eq_real (y v : Byte) :
    (numeratorR y v : ℚ) = 1000 * ((1.164 : ℚ) * (y.toNat - 16) + 1.596 * (v.toNat - 128)) := by
  unfold numeratorR; push_cast; ring

/-- A channel under EXACT is the floor of the thousandth part of its numerator, clamped. -/
theorem channelExact_eq_floor {n : Int} {x : ℚ} (h : (n : ℚ) = 1000 * x) : channelExact n = max 0 (min ⌊x⌋ 255) := by
  have hx : x = (n : ℚ) / (1000 : ℕ) := by rw [h]; push_cast; ring
  rw [hx, Rat.floor_intCast_div_natCast]
  rfl

/-- Settles O13: each numerator is 1000 times its expression, so the channel's Int division is the expression's floor. -/
theorem cscIsTheRealFormula : Obligations.CscIsTheRealFormula := by
  intro frame pixel y u v
  refine ⟨⟨numeratorB_eq_real y u, numeratorG_eq_real y u v, numeratorR_eq_real y v⟩, ?_⟩
  simp only [cscPixel, List.map_cons, List.map_nil, channelByte_toNat, channelValue_exact,
    channelExact_eq_floor (numeratorB_eq_real y u), channelExact_eq_floor (numeratorG_eq_real y u v),
    channelExact_eq_floor (numeratorR_eq_real y v)]
  rfl

/-! ### Clamping and truncation -/

theorem clamp255_floor (x : ℝ) : clamp255 ⌊x⌋ = ⌊max 0 (min x 255)⌋ := by
  have hmin : ⌊min x 255⌋ = min ⌊x⌋ 255 := by rw [Int.floor_mono.map_min, Int.floor_ofNat]
  rw [Int.floor_mono.map_max, hmin, Int.floor_zero]
  rfl

/-- Truncation differs from the floor below 0 only, where both are clamped to 0. -/
theorem clamp255_trunc (x : ℝ) : clamp255 (if 0 ≤ x then ⌊x⌋ else ⌈x⌉) = clamp255 ⌊x⌋ := by
  split
  · rfl
  next h =>
    have hneg : x ≤ 0 := (not_le.1 h).le
    rw [clamp255_of_nonpos (Int.ceil_le.2 (by simpa using hneg)), clamp255_of_nonpos (Int.floor_nonpos hneg)]

/-- Settles O14: the floor is monotone, so it passes through the clamp. -/
theorem clampAndTruncateCommute : Obligations.ClampAndTruncateCommute := by
  intro x
  refine ⟨clamp255_floor x, (clamp255_trunc x).symm, fun h => ?_, fun h0 h255 => ?_, fun h => ?_⟩
  · exact clamp255_of_nonpos (Int.floor_nonpos h.le)
  · exact clamp255_of_range (Int.floor_nonneg.2 h0) (by simpa using Int.floor_mono h255)
  · exact clamp255_of_ge (Int.le_floor.2 (by simpa using h.le))

/-! ### Pixels -/

/-- Settles O12: the unpacker reads the group's four bytes, and each pixel has its own luma. -/
theorem uyvyGroupSharesChroma : Obligations.UyvyGroupSharesChroma := by
  rintro numerics frame src g m _ _ _ _ rfl rfl rfl rfl
  rfl

/-- The numerator all three channels have at neutral chroma (40_color_decode R77). -/
def neutralNumerator (y : Byte) : Int := 1164 * ((y.toNat : Int) - 16)

theorem numeratorB_neutral (y : Byte) : numeratorB y 128 = neutralNumerator y := by
  simp [numeratorB, neutralNumerator]

theorem numeratorG_neutral (y : Byte) : numeratorG y 128 128 = neutralNumerator y := by
  simp [numeratorG, neutralNumerator]

theorem numeratorR_neutral (y : Byte) : numeratorR y 128 = neutralNumerator y := by
  simp [numeratorR, neutralNumerator]

/-- A multiple of 1164 that is one of 1000 too is one of 291000, past every boundary point. -/
theorem boundaryPoint_neutral (y : Byte) : boundaryPoint (neutralNumerator y) = false := by
  refine Bool.eq_false_iff.2 fun h => ?_
  obtain ⟨hmod, hlo, hhi⟩ := (boundaryPoint_iff _).1 h
  unfold neutralNumerator at hmod hlo hhi
  omega

theorem channelValue_neutral (numerics : Config.CscNumerics) (low : Bool) (y : Byte) :
    channelValue numerics low (neutralNumerator y) = channelExact (neutralNumerator y) :=
  channelValue_of_not_boundaryPoint numerics low (boundaryPoint_neutral y)

theorem channelByte_neutral (numerics : Config.CscNumerics) (low : Bool) (y : Byte) :
    channelByte numerics low (neutralNumerator y) = BitVec.ofNat 8 (channelExact (neutralNumerator y)).toNat := by
  rw [channelByte, channelValue_neutral]

/-- At neutral chroma the pixel is gray, whatever the setting and the draws. -/
theorem cscPixel_neutral (numerics : Config.CscNumerics) (frame pixel : Nat) (y : Byte) :
    cscPixel numerics frame pixel y 128 128 =
      List.replicate 3 (BitVec.ofNat 8 (channelExact (neutralNumerator y)).toNat) ++ [0xFF] := by
  simp only [cscPixel, numeratorB_neutral, numeratorG_neutral, numeratorR_neutral, channelByte_neutral]
  rfl

theorem neutralNumerator_mono {y y' : Byte} (h : y.toNat ≤ y'.toNat) : neutralNumerator y ≤ neutralNumerator y' := by
  unfold neutralNumerator; omega

theorem channelExact_neutral_black {y : Byte} (h : y.toNat ≤ 16) : channelExact (neutralNumerator y) = 0 :=
  clamp255_of_nonpos (by unfold neutralNumerator; omega)

theorem channelExact_neutral_white {y : Byte} (h : 236 ≤ y.toNat) : channelExact (neutralNumerator y) = 255 :=
  clamp255_of_ge (by unfold neutralNumerator; omega)

/-- Settles O16: B has no v and R no u; at neutral chroma no numerator is a boundary point, so every channel is EXACT's. -/
theorem cscProperties : Obligations.CscProperties := by
  intro numerics f p low low'
  refine ⟨channelValue_range numerics low, ?_, ?_, fun _ _ _ _ => rfl, fun _ _ _ _ => rfl, fun y => ?_, fun y y' h => ?_,
    fun y h => ?_, fun y h => ?_⟩
  · rw [cscPixel_neutral]; decide
  · rw [cscPixel_neutral]; decide
  · rw [cscPixel_neutral]
    exact ⟨rfl, rfl, congrArg some (channelByte_neutral numerics low y).symm⟩
  · exact (channelValue_neutral numerics low y).trans_le
      ((channelExact_mono (neutralNumerator_mono h)).trans_eq (channelValue_neutral numerics low' y').symm)
  · exact (channelValue_neutral numerics low y).trans (channelExact_neutral_black h)
  · exact (channelValue_neutral numerics low y).trans (channelExact_neutral_white h)

end Sys2Proof.Machine
end

section
/-! DECODE_COLOR: the checks of an accept step as one chain (40_color_decode R68), what neither DECODE changes at its CMD
write, and the bytes of the CU's write step (R69, R70). -/

namespace Sys2Proof.Machine

/-! ### The accept step -/

theorem raiseStatus_cu {s : State} (code : Status) (hp : s.port = .cu) :
    raiseStatus code s = { s with cu := { s.cu with lastStatus := code } } := by
  simp only [raiseStatus, hp, modifyUnit_cu]

theorem frameW_append {U : UnitState} {w h : Half} (hd : U.frameDim = h ++ w) : frameW U = w := by
  rw [frameW, hd, BitVec.extractLsb'_append_eq_of_add_le (by omega)]
  exact BitVec.extractLsb'_eq_self

theorem frameH_append {U : UnitState} {w h : Half} (hd : U.frameDim = h ++ w) : frameH U = h := by
  rw [frameH, hd, BitVec.extractLsb'_append_eq_of_le (by omega)]
  exact BitVec.extractLsb'_eq_self

/-- What a frame comes to, as the chain of checks it goes through (60_exceptions R106). -/
theorem frameReject_elim {α : Sort*} (P : Config.Params) (U : UnitState) (pairs : Bool) (bpp : Nat) (accept : α)
    (reject : Status → α) :
    (frameReject P U pairs bpp).elim accept reject =
      if (frameW U).toNat = 0 ∨ (frameH U).toNat = 0 ∨ P.maxW < (frameW U).toNat ∨ P.maxH < (frameH U).toNat then
        reject .invalidGeometry
      else if pairs = true ∧ (frameW U).toNat % 2 = 1 then reject .invalidGeometry
      else if 0xFFFFFFFF < U.srcAddr.toNat + (frameW U).toNat * (frameH U).toNat * bpp - 1 then reject .sourceRange
      else if U.allocW ≠ 0 ∧ (U.allocW, U.allocH) ≠ (frameW U, frameH U) then reject .dimensionMismatch
      else accept := by
  simp only [frameReject, apply_ite (fun r : Option Status => r.elim accept reject), Option.elim_some, Option.elim_none,
    ne_eq, Prod.mk.injEq, not_and_or]

theorem colorAcceptStep_eq_elim (fmt : PixelFormat) (s : State) :
    colorAcceptStep fmt s = (colorReject s.params s.cu fmt).elim (acceptColor fmt s) fun code => raiseStatus code s := by
  obtain ⟨code, hr, he⟩ | ⟨hr, he⟩ := colorAcceptStep_cases fmt s
  · rw [he, hr, Option.elim_some]
  · rw [he, hr, Option.elim_none]

theorem colorBpp_eq (fmt : PixelFormat) : colorBpp fmt = if fmt = .packedBgr32 then 4 else 2 := by
  cases fmt <;> rfl

theorem colorReject_unrecognized (P : Config.Params) (U : UnitState) {fmt : PixelFormat}
    (h : fmt ≠ .packedBgr32 ∧ fmt ≠ .uyvy) : colorReject P U fmt = some .unsupportedFormat := by
  cases fmt with
  | packedBgr32 => exact absurd rfl h.1
  | uyvy => exact absurd rfl h.2
  | unrecognized tag => rfl

theorem colorReject_recognized (P : Config.Params) (U : UnitState) {fmt : PixelFormat}
    (h : ¬(fmt ≠ .packedBgr32 ∧ fmt ≠ .uyvy)) :
    colorReject P U fmt = frameReject P U (decide (fmt = .uyvy)) (colorBpp fmt) := by
  cases fmt with
  | packedBgr32 => rfl
  | uyvy => rfl
  | unrecognized tag => exact absurd ⟨nofun, nofun⟩ h

/-- A frame that passes the last check leaves the raster of the frame's dimensions, whether it allocates it or not (10_state
R32). -/
theorem latchDecode_eq {U : UnitState} (op : DecodeOp) (fmt : PixelFormat)
    (h : ¬(U.allocW ≠ 0 ∧ (U.allocW, U.allocH) ≠ (frameW U, frameH U))) :
    latchDecode op fmt U =
      { U with
        allocW := frameW U, allocH := frameH U, phase := .write
        lat := { op := op, fmt := fmt, src := U.srcAddr, w := frameW U, h := frameH U } } := by
  by_cases h0 : U.allocW = 0
  · simp only [latchDecode, if_pos h0]
  · have hdims : (U.allocW, U.allocH) = (frameW U, frameH U) := not_not.1 fun hne => h ⟨h0, hne⟩
    obtain ⟨hw, hh⟩ := Prod.mk.inj hdims
    simp only [latchDecode, if_neg h0]
    rw [hw, hh]

theorem sizeScratch_eq (fmt : PixelFormat) (U : UnitState) (scratch : Option Nat) :
    sizeScratch fmt U scratch =
      if fmt = .uyvy ∧ scratch = none then some ((frameW U).toNat * (frameH U).toNat) else scratch := by
  cases fmt <;> cases scratch <;> simp [sizeScratch]

/-- Settles O9: the format decides whether the shared chain of checks is reached; its branches are the statement's, in its
order. -/
theorem decodeColorAcceptStep : Obligations.DecodeColorAcceptStep := by
  intro s fmt w h hp hi hd
  obtain rfl := frameW_append hd
  obtain rfl := frameH_append hd
  rw [exec_decodeColor_idle fmt (by rw [hp]; exact hi), if_pos hp, colorAcceptStep_eq_elim]
  by_cases hfmt : fmt ≠ .packedBgr32 ∧ fmt ≠ .uyvy
  · rw [if_pos hfmt, colorReject_unrecognized _ _ hfmt, Option.elim_some, raiseStatus_cu _ hp]
  · rw [if_neg hfmt, colorReject_recognized _ _ hfmt, frameReject_elim]
    simp only [decide_eq_true_eq, raiseStatus_cu _ hp, gt_iff_lt, colorBpp_eq]
    -- The first three checks agree branch by branch; an accepted frame has passed the fourth.
    congr 4
    refine ite_congr rfl (fun _ => rfl) fun hdims => ?_
    rw [acceptColor, latchDecode_eq .color fmt hdims, sizeScratch_eq]

/-! ### The frame of a DECODE -/

/-- What a DECODE does to an idle unit: it raises a status, or the unit accepts the frame. -/
theorem exec_decode_idle_cases {i : Instr} {s t : State} (hdec : i = .decodeDepth ∨ ∃ fmt, i = .decodeColor fmt)
    (hi : (s.unit s.port).phase = .idle) (h : exec i s = .next t) :
    (∃ code, t = s.modifyUnit s.port fun U => { U with lastStatus := code }) ∨
      ∃ op fmt scratch count,
        t = { s.modifyUnit s.port (latchDecode op fmt) with cuScratch := scratch, frameCount := count } := by
  obtain rfl | ⟨fmt, rfl⟩ := hdec
  · rw [exec_decodeDepth_idle hi] at h
    cases h
    split
    next hp =>
      obtain ⟨code, -, he⟩ | ⟨-, he⟩ := depthAcceptStep_cases s
      · exact .inl ⟨code, he⟩
      · refine .inr ⟨.depth, .packedBgr32, s.cuScratch, s.frameCount, ?_⟩
        simp only [he, acceptDepth, hp, modifyUnit_du]
    next => exact .inl ⟨_, rfl⟩
  · rw [exec_decodeColor_idle fmt hi] at h
    cases h
    split
    next hp =>
      obtain ⟨code, -, he⟩ | ⟨-, he⟩ := colorAcceptStep_cases fmt s
      · exact .inl ⟨code, he⟩
      · refine .inr ⟨.color, fmt, sizeScratch fmt s.cu s.cuScratch, s.frameCount + 1, ?_⟩
        simp only [he, acceptColor, hp, modifyUnit_cu]
    next => exact .inl ⟨_, rfl⟩

/-- Settles O10: a rejection is LAST_STATUS only; an acceptance enters WRITE, and writes the allocation and the latch. -/
theorem decodeFrame : Obligations.DecodeFrame := by
  intro i s t hdec hi h
  obtain ⟨code, rfl⟩ | ⟨op, fmt, scratch, count, rfl⟩ := exec_decode_idle_cases hdec hi h
  · refine ⟨fun v hv => modifyUnit_unit_other s _ hv, ?_⟩
    simp [hi]
  · refine ⟨fun v hv => (unit_mk _ _ _ _ _ _ _ _ _ _ v).trans (modifyUnit_unit_other s _ hv), ?_⟩
    simp [latchDecode]

/-! ### The write step -/

/-- Entry `k * i + j` of a list made of pieces of length `k` is entry `j` of piece `i`. -/
theorem getElem?_flatMap_range {α : Type} {n k : Nat} {f : Nat → List α} (h : ∀ i, (f i).length = k) {i j : Nat} (hi : i < n)
    (hj : j < k) : ((List.range n).flatMap f)[k * i + j]? = (f i)[j]? := by
  induction n with
  | zero => omega
  | succ n ih =>
    rw [List.range_succ, List.flatMap_append, List.flatMap_singleton]
    have hlen := length_flatMap_range n k f h
    obtain hlt | rfl := Nat.lt_succ_iff_lt_or_eq.1 hi
    · have hbound : k * i + j < n * k := by nlinarith
      rw [List.getElem?_append_left (by rw [hlen]; exact hbound), ih hlt]
    · rw [List.getElem?_append_right (by rw [hlen]; nlinarith), hlen]
      congr 1
      rw [Nat.mul_comm i k]; omega

/-- The CU's write step is enabled in WRITE, whatever the DU does (40_color_decode R69). -/
theorem step_cu_write {s : State} {rest : List Event} (hf : s.faults = []) (ha : s.agenda = .unitTurn .cu :: rest)
    (hw : s.cu.phase = .write) :
    step s = .next { s with agenda := rest, cu := storeFrame (colorFrame s s.cu.lat) s.cu } := by
  rw [step_unitTurn hf ha]
  simp only [unitStep, unit_cu, hw, modifyUnit_cu, newFrame]
  rfl

theorem packedFrame_getElem? (m : Memory) (src : Nat) {n p k : Nat} (hp : p < n) (hk : k < 4) :
    (packedFrame m src n)[4 * p + k]? = some (Memory.read m (src + 4 * p + k)) := by
  rw [packedFrame, getElem?_flatMap_range (f := packedPixel m src) (fun _ => rfl) hp hk]
  interval_cases k <;> rfl

theorem uyvyFrame_getElem? (numerics : Config.CscNumerics) (frame : Nat) (m : Memory) (src : Nat) {n g k : Nat}
    (hg : g < n / 2) (hk : k < 8) :
    (uyvyFrame numerics frame m src n)[8 * g + k]? = (uyvyGroup numerics frame m src g)[k]? :=
  getElem?_flatMap_range (f := uyvyGroup numerics frame m src) (fun _ => rfl) hg hk

/-- Settles O11: the stored list is the latched format's frame, and its entries are those of its pieces. -/
theorem cuWriteStep : Obligations.CuWriteStep := by
  intro s rest hf ha hw
  refine ⟨colorFrame s s.cu.lat, step_cu_write hf ha hw, fun hfmt => ?_, fun hfmt => ?_⟩
  · simp only [colorFrame, hfmt, packedFrame_length, Nat.mul_comm _ 4, true_and]
    exact fun p k hp hk => packedFrame_getElem? s.srcMem _ hp hk
  · simp only [colorFrame, hfmt, uyvyFrame_length, Nat.mul_comm _ 8, true_and]
    exact fun g k hg hk => uyvyFrame_getElem? _ _ s.srcMem _ hg hk

end Sys2Proof.Machine
end

section
/-! DECODE_DEPTH: the accept step (41_depth_decode R80) and the bytes of the DU's write step (R81), as those of the color unit
above. -/

namespace Sys2Proof.Machine

/-! ### The accept step -/

theorem raiseStatus_du {s : State} (code : Status) (hp : s.port = .du) :
    raiseStatus code s = { s with du := { s.du with lastStatus := code } } := by
  simp only [raiseStatus, hp, modifyUnit_du]

theorem depthAcceptStep_eq_elim (s : State) :
    depthAcceptStep s =
      (frameReject s.params s.du false depthBpp).elim (acceptDepth s) fun code => raiseStatus code s := by
  obtain ⟨code, hr, he⟩ | ⟨hr, he⟩ := depthAcceptStep_cases s
  · rw [he, hr, Option.elim_some]
  · rw [he, hr, Option.elim_none]

/-- Settles O18: the shared chain of checks without the one on pairs, at 2 bytes a pixel. -/
theorem decodeDepthAcceptStep : Obligations.DecodeDepthAcceptStep := by
  intro s w h hp hi hd
  obtain rfl := frameW_append hd
  obtain rfl := frameH_append hd
  have hlen : (frameW s.du).toNat * (frameH s.du).toNat * depthBpp = 2 * (frameW s.du).toNat * (frameH s.du).toNat := by
    rw [depthBpp, Nat.mul_comm, Nat.mul_assoc]
  rw [exec_decodeDepth_idle (by rw [hp]; exact hi), if_pos hp, depthAcceptStep_eq_elim, frameReject_elim, hlen]
  simp only [Bool.false_eq_true, false_and, if_false, raiseStatus_du _ hp, gt_iff_lt]
  -- The three rejections agree branch by branch; an accepted frame has passed the last check.
  congr 3
  refine ite_congr rfl (fun _ => rfl) fun hdims => ?_
  rw [acceptDepth, latchDecode_eq .depth .packedBgr32 hdims]

/-! ### The write step -/

/-- The DU's write step is enabled in WRITE, whatever the CU does (41_depth_decode R81). -/
theorem step_du_write {s : State} {rest : List Event} (hf : s.faults = []) (ha : s.agenda = .unitTurn .du :: rest)
    (hw : s.du.phase = .write) :
    step s = .next { s with agenda := rest, du := storeFrame (depthFrame s s.du.lat) s.du } := by
  rw [step_unitTurn hf ha]
  simp only [unitStep, unit_du, hw, modifyUnit_du, newFrame]
  rfl

theorem depthFrame_getElem? (s : State) (l : Latch) {i k : Nat} (hi : i < l.w.toNat * l.h.toNat) (hk : k < 4) :
    (depthFrame s l)[4 * i + k]? = (depthPixel (Memory.read16 s.srcMem (l.src.toNat + 2 * i)))[k]? :=
  getElem?_flatMap_range (f := fun i => depthPixel (Memory.read16 s.srcMem (l.src.toNat + 2 * i))) (fun _ => rfl) hi hk

/-- Settles O19: the stored list is the depth frame, whose pieces are the samples' pixels. -/
theorem duWriteStep : Obligations.DuWriteStep := by
  intro s rest hf ha hw
  refine ⟨depthFrame s s.du.lat, step_du_write hf ha hw, ?_, fun i k hi hk => depthFrame_getElem? s _ hi hk⟩
  rw [depthFrame_length, Nat.mul_comm]

end Sys2Proof.Machine
end

section
/-! The pixel of a depth sample (41_depth_decode R82 to R89): the sample's two fields as numbers, the intensity, the rows of the
palette, and the pixel's bytes. -/

namespace Sys2Proof.Machine

/-! ### The fields of a sample -/

theorem sampleTag_toNat (sample : Half) : (sampleTag sample).toNat = sample.toNat % 8 := by
  rw [sampleTag, BitVec.extractLsb'_toNat, Nat.shiftRight_zero]

/-- The 13 bits above the tag are the whole quotient: the distance is unsigned (90_conflicts C3). -/
theorem sampleDistance_eq (sample : Half) : sampleDistance sample = sample.toNat / 8 := by
  have := sample.isLt
  rw [sampleDistance, BitVec.extractLsb'_toNat, Nat.shiftRight_eq_div_pow]
  omega

/-! ### The intensity -/

theorem intensity_le (d : Nat) : intensity d ≤ 255 := Nat.sub_le _ _

theorem halfIntensity_le {i : Nat} (h : i ≤ 255) : halfIntensity i ≤ 127 := by
  rw [halfIntensity]; omega

theorem intensity_antitone {d d' : Nat} (h : d ≤ d') : intensity d' ≤ intensity d :=
  Nat.sub_le_sub_left (Nat.div_le_div_right (Nat.mul_le_mul_left 255 h)) 255

/-- The quotient that is taken from 255 is 0 as long as 255 * d is below the ceiling. -/
theorem intensity_eq_255_iff (d : Nat) : intensity d = 255 ↔ d ≤ 32 := by
  rw [intensity, distanceCeiling]; omega

theorem intensity_eq_zero_iff (d : Nat) : intensity d = 0 ↔ 8191 ≤ d := by
  rw [intensity, distanceCeiling]; omega

/-! ### The palette -/

/-- The rows of the palette by the tag's value. -/
theorem palette_eq_ite (tag : BitVec 3) (i : Nat) :
    palette tag i =
      if tag.toNat = 0 then (halfIntensity i, halfIntensity i, halfIntensity i)
      else if tag.toNat = 1 then (i, 0, 0)
      else if tag.toNat = 2 then (0, i, 0)
      else if tag.toNat = 3 then (0, 0, i)
      else if tag.toNat = 4 then (i, i, 0)
      else if tag.toNat = 5 then (i, 0, i)
      else if tag.toNat = 6 then (0, i, i)
      else (i, i, i) := by
  unfold palette
  split <;> simp_all

theorem palette_le (tag : BitVec 3) (i : Nat) :
    (palette tag i).1 ≤ i ∧ (palette tag i).2.1 ≤ i ∧ (palette tag i).2.2 ≤ i := by
  have hhalf : halfIntensity i ≤ i := Nat.div_le_self i 2
  unfold palette
  split <;> simp [hhalf]

theorem palette_zero (tag : BitVec 3) : palette tag 0 = (0, 0, 0) := by
  obtain ⟨hr, hg, hb⟩ := palette_le tag 0
  simp only [Nat.le_zero] at hr hg hb
  exact Prod.ext hr (Prod.ext hg hb)

/-! ### The pixel -/

/-- A sample's row of the palette, at its intensity. -/
def sampleColor (sample : Half) : Nat × Nat × Nat := palette (sampleTag sample) (intensity (sampleDistance sample))

theorem depthPixel_eq (sample : Half) :
    depthPixel sample =
      [BitVec.ofNat 8 (sampleColor sample).2.2, BitVec.ofNat 8 (sampleColor sample).2.1, BitVec.ofNat 8 (sampleColor sample).1,
        0xFF] := rfl

/-- No channel is cut to its byte. -/
theorem depthPixel_toNat (sample : Half) :
    (depthPixel sample).map BitVec.toNat = [(sampleColor sample).2.2, (sampleColor sample).2.1, (sampleColor sample).1, 255] := by
  have hfit {n : Nat} (h : n ≤ intensity (sampleDistance sample)) : n % 2 ^ 8 = n :=
    Nat.mod_eq_of_lt (Nat.lt_succ_of_le (h.trans (intensity_le _)))
  obtain ⟨hr, hg, hb⟩ := palette_le (sampleTag sample) (intensity (sampleDistance sample))
  simp only [depthPixel_eq, List.map_cons, List.map_nil, BitVec.toNat_ofNat]
  rw [sampleColor, hfit hr, hfit hg, hfit hb]
  rfl

/-- Settles O20: the row of the tag, read in the order B, G, R. -/
theorem depthPixelByPalette : Obligations.DepthPixelByPalette := by
  intro sample
  have hi := intensity_le (sampleDistance sample)
  refine ⟨intensity (sampleDistance sample), halfIntensity (intensity (sampleDistance sample)), ?_, rfl, hi,
    halfIntensity_le hi, ?_⟩
  · rw [sampleDistance_eq]; rfl
  · rw [depthPixel_toNat, sampleColor, palette_eq_ite, sampleTag_toNat]
    split_ifs <;> rfl

/-- The channels of tag 0 are the half intensity (41_depth_decode R85, R86). -/
theorem depthPixel_tag_zero {sample : Half} (h : sample.toNat % 8 = 0) {k : Nat} {b : Byte} (hk : k < 3)
    (hb : (depthPixel sample)[k]? = some b) : b.toNat ≤ 127 := by
  have hrow := depthPixel_toNat sample
  rw [sampleColor, palette_eq_ite, sampleTag_toNat, if_pos h] at hrow
  have hb' : ((depthPixel sample).map BitVec.toNat)[k]? = some b.toNat := by rw [List.getElem?_map, hb]; rfl
  rw [hrow] at hb'
  have hhalf := halfIntensity_le (intensity_le (sampleDistance sample))
  interval_cases k <;> exact Option.some.inj hb' ▸ hhalf

/-- A sample at the ceiling is black whatever its tag (41_depth_decode R89). -/
theorem depthPixel_ceiling {sample : Half} (h : 0xFFF8 ≤ sample.toNat) : depthPixel sample = [0, 0, 0, 0xFF] := by
  have hd : 8191 ≤ sampleDistance sample := by rw [sampleDistance_eq]; omega
  rw [depthPixel_eq, sampleColor, (intensity_eq_zero_iff _).2 hd, palette_zero]
  rfl

/-- Settles O21: the intensity's shape, the rows by definition, and the two facts about pixels. -/
theorem intensityProperties : Obligations.IntensityProperties :=
  ⟨fun _ _ h _ => intensity_antitone h,
    fun d hd => ⟨intensity_eq_255_iff d, (intensity_eq_zero_iff d).trans ⟨hd.antisymm, Eq.ge⟩⟩,
    fun _ => ⟨rfl, rfl, rfl, rfl, rfl, rfl, rfl, rfl⟩,
    fun _ h _ _ hk hb => depthPixel_tag_zero h hk hb,
    fun _ h => depthPixel_ceiling h⟩

end Sys2Proof.Machine
end

section
/-! SUBSCRIBE and UNSUBSCRIBE (42_notifier R91, R92): which entry leaves the table, what neither command touches, and that
handles only rise. -/

namespace Sys2Proof.Machine

/-! ### UNSUBSCRIBE -/

theorem hasHandle_eq_false_iff (subs : List Subscription) (handle : Half) :
    hasHandle subs handle = false ↔ ∀ e ∈ subs, e.handle ≠ handle := by
  simp [hasHandle]

theorem unsubscribeUnit_unknown {handle : Half} {U : UnitState} (h : handle = 0 ∨ ∀ e ∈ U.subs, e.handle ≠ handle) :
    unsubscribeUnit handle U = { U with lastStatus := .noSuchSubscriber } :=
  if_pos (h.imp_right (hasHandle_eq_false_iff _ _).2)

theorem unsubscribeUnit_entry {handle : Half} {sink : Byte} {U : UnitState} {before after : List Subscription}
    (h0 : handle ≠ 0) (hs : U.subs = before ++ { handle := handle, sink := sink } :: after)
    (hother : ∀ e ∈ before ++ after, e.handle ≠ handle) :
    unsubscribeUnit handle U = { U with subs := before ++ after, lastStatus := .ok } := by
  have hhas : hasHandle U.subs handle ≠ false := by simp [hasHandle, hs]
  have hkept : U.subs.filter (fun e => e.handle != handle) = before ++ after := by
    rw [hs, List.filter_append, List.filter_cons_of_neg (by simp), ← List.filter_append]
    exact List.filter_eq_self.2 fun e he => bne_iff_ne.2 (hother e he)
  rw [unsubscribeUnit, if_neg (not_or.2 ⟨h0, hhas⟩), hkept]

/-- Settles O23: the command is `unsubscribeUnit` on its unit, whose two branches are the two clauses. -/
theorem unsubscribeResult : Obligations.UnsubscribeResult := by
  intro s handle hi
  rw [exec_unsubscribe_idle handle hi]
  constructor
  · intro hunknown
    exact congrArg Host.Outcome.next (Safety.modifyUnit_congr s _ (unsubscribeUnit_unknown hunknown))
  · intro before after sink h0 hs hother
    exact congrArg Host.Outcome.next (Safety.modifyUnit_congr s _ (unsubscribeUnit_entry h0 hs hother))

/-! ### The frame of both commands -/

theorem subscribeUnit_frame (P : Config.Params) (sink : Byte) (U : UnitState) :
    ∃ subs next result code, subscribeUnit P sink U =
      { U with subs := subs, nextHandle := next, result := result, lastStatus := code } := by
  obtain ⟨code, he⟩ | ⟨-, -, -, he⟩ := subscribeUnit_cases P sink U
  · exact ⟨U.subs, U.nextHandle, 0, code, he⟩
  · exact ⟨_, _, _, _, he⟩

theorem unsubscribeUnit_frame (handle : Half) (U : UnitState) :
    ∃ subs code, unsubscribeUnit handle U = { U with subs := subs, lastStatus := code } := by
  obtain he | he := unsubscribeUnit_cases handle U
  · exact ⟨U.subs, _, he⟩
  · exact ⟨_, _, he⟩

/-- Settles O24: each command changes its own unit only, and there at most the table, next_handle, RESULT and LAST_STATUS. -/
theorem subscriptionFrame : Obligations.SubscriptionFrame := by
  rintro i s t (⟨sink, rfl⟩ | ⟨handle, rfl⟩) hi h
  · rw [exec_subscribe_idle sink hi] at h
    cases h
    obtain ⟨subs, next, result, code, he⟩ := subscribeUnit_frame s.params sink (s.unit s.port)
    refine ⟨fun v hv => modifyUnit_unit_other s _ hv, ?_⟩
    simp [he, hi]
  · rw [exec_unsubscribe_idle handle hi] at h
    cases h
    obtain ⟨subs, code, he⟩ := unsubscribeUnit_frame handle (s.unit s.port)
    refine ⟨fun v hv => modifyUnit_unit_other s _ hv, ?_⟩
    simp [he, hi]

end Sys2Proof.Machine

namespace Sys2Proof.Safety

open Sys2Proof.Machine

/-! ### Handles -/

/-- next_handle does not fall, and an entry new to the table has the old next_handle, which has risen by one (42_notifier
R91). -/
def HandlesRise (U V : UnitState) : Prop :=
  U.nextHandle ≤ V.nextHandle ∧
    ∀ e ∈ V.subs, e ∈ U.subs ∨ (e.handle = BitVec.ofNat 16 U.nextHandle ∧ V.nextHandle = U.nextHandle + 1)

theorem HandlesRise.of_subset {U V : UnitState} (hn : V.nextHandle = U.nextHandle) (hs : V.subs ⊆ U.subs) :
    HandlesRise U V :=
  ⟨hn.ge, fun _ he => .inl (hs he)⟩

theorem HandlesRise.of_eq {U V : UnitState} (hn : V.nextHandle = U.nextHandle) (hs : V.subs = U.subs) : HandlesRise U V :=
  .of_subset hn (hs ▸ List.Subset.refl _)

theorem handlesRise_subscribeUnit (P : Config.Params) (sink : Byte) (U : UnitState) :
    HandlesRise U (subscribeUnit P sink U) := by
  obtain ⟨code, he⟩ | ⟨-, -, -, he⟩ := subscribeUnit_cases P sink U
  · rw [he]; exact .of_eq rfl rfl
  · rw [he]
    refine ⟨Nat.le_succ _, fun e hmem => ?_⟩
    obtain hold | rfl := List.mem_append.1 hmem |>.imp_right List.mem_singleton.1
    · exact .inl hold
    · exact .inr ⟨rfl, rfl⟩

/-- Only SUBSCRIBE adds an entry or touches next_handle; only it and UNSUBSCRIBE touch the table. -/
theorem unitChange_handles {s : State} {u : UnitId} {V : UnitState} (h : UnitChange u s V)
    (hreset : s.agenda.head? ≠ some .reset) : HandlesRise (s.unit u) V := by
  cases h with
  | subscribed sink idle => exact handlesRise_subscribeUnit s.params sink (s.unit u)
  | unsubscribed handle idle =>
    obtain he | he := unsubscribeUnit_cases handle (s.unit u)
    · rw [he]; exact .of_eq rfl rfl
    · rw [he]; exact .of_subset rfl (List.filter_sublist.subset)
  | same => exact .of_eq rfl rfl
  | raised code idle => exact .of_eq rfl rfl
  | latched c i rest fmt pairs bpp idle taken meant decodes passed kind => exact .of_eq rfl rfl
  | written turn phase => exact .of_eq rfl rfl
  | notified turn phase =>
    obtain he | ⟨e, -, -, he⟩ | ⟨-, he⟩ := notifyStep_cases (s.unit u)
    all_goals rw [he]; exact .of_eq rfl rfl
  | register r v rest notCmd ack =>
    obtain ⟨src, dim, he⟩ | ⟨e, -, he⟩ | ⟨e, -, -, -, he⟩ := writeRegister_cases r v (s.unit u)
    all_goals rw [he]; exact .of_eq rfl rfl
  | reset rest taken => exact absurd (by rw [taken]; rfl) hreset

/-- Settles O25: a new handle is the old next_handle, and the invariant after the step says that it did not wrap. -/
theorem handlesNeverReused : Obligations.HandlesNeverReused := by
  intro s t u h hreset
  obtain ⟨hle, hentries⟩ := unitChange_handles (step_unitChange h u) hreset
  refine ⟨hle, fun e he => (hentries e he).imp_right fun ⟨hhandle, hnext⟩ => ⟨hhandle, hnext, fun hinv => ?_⟩⟩
  have hold := hinv.unit u
  have hpos := hold.nextHandleRange.1
  have hmax := ((stepKeepsInvariant s t hinv h).unit u).nextHandleRange.2
  have hvalue : e.handle.toNat = (s.unit u).nextHandle := by
    rw [hhandle, BitVec.toNat_ofNat]; omega
  refine ⟨hvalue, ?_, fun old hmem => ?_⟩
  · intro h0
    simp only [h0, BitVec.ofNat_eq_ofNat, BitVec.reduceToNat] at hvalue
    omega
  · rw [hvalue]
    exact (hold.handlesIssued old hmem).2

end Sys2Proof.Safety
end

section
/-! The NOTIFY phase one step at a time (42_notifier R94 to R100): the deliver and complete steps, each answer of a sink, and the
CHANGED lines. -/

namespace Sys2Proof.Machine

/-! ### The CHANGED lines -/

theorem pendsFor_iff (U : UnitState) (k : Nat) : pendsFor U k = true ↔ ∃ e, U.pend = some e ∧ e.sink.toNat = k := by
  unfold pendsFor
  cases U.pend with
  | none => simp
  | some e => simp

theorem changedLine_iff (s : State) (k : Nat) :
    changedLine s k = true ↔ ∃ u e, (s.unit u).pend = some e ∧ e.sink.toNat = k := by
  rw [changedLine, Bool.or_eq_true, pendsFor_iff, pendsFor_iff]
  constructor
  · rintro (h | h)
    · exact ⟨.cu, h⟩
    · exact ⟨.du, h⟩
  · rintro ⟨u, h⟩
    cases u with
    | cu => exact .inl h
    | du => exact .inr h

/-- Settles O31: a line is the disjunction of the two units' pending events addressed to its sink. -/
theorem changedLineLevel : Obligations.ChangedLineLevel := by
  intro s k _
  rw [changedLine, Bool.or_eq_true, pendsFor_iff, pendsFor_iff]

/-! ### Acknowledgements -/

/-- CODE of a word written to ACK (10_state R26). -/
theorem ackCode_eq_iff (v : Word) (code : BitVec 2) : v.extractLsb' 0 2 = code ↔ v.toNat % 4 = code.toNat := by
  rw [← BitVec.toNat_inj, BitVec.extractLsb'_toNat, Nat.shiftRight_zero]

theorem writeAck_ok {v : Word} {U : UnitState} {e : Subscription} (hcode : v.toNat % 4 = 1) (hpend : U.pend = some e) :
    writeAck v U = ackOk U := by
  simp only [writeAck, hpend, if_pos ((ackCode_eq_iff v 1).2 hcode)]

theorem writeAck_fail {v : Word} {U : UnitState} {e : Subscription} (hcode : v.toNat % 4 = 2) (hpend : U.pend = some e) :
    writeAck v U = ackFail e U := by
  have hfail : v.extractLsb' 0 2 = (2 : BitVec 2) := (ackCode_eq_iff v 2).2 hcode
  have hok : ¬v.extractLsb' 0 2 = (1 : BitVec 2) := by rw [hfail]; decide
  simp only [writeAck, hpend, if_neg hok, if_pos hfail]

theorem writeAck_ignored {v : Word} {U : UnitState} (h : U.pend = none ∨ v.toNat % 4 = 0 ∨ v.toNat % 4 = 3) :
    writeAck v U = U := by
  unfold writeAck
  cases hpend : U.pend with
  | none => rfl
  | some e =>
    have hcode : v.toNat % 4 = 0 ∨ v.toNat % 4 = 3 := h.resolve_left (by simp [hpend])
    have hok : ¬v.extractLsb' 0 2 = (1 : BitVec 2) := by rw [ackCode_eq_iff]; change ¬v.toNat % 4 = 1; omega
    have hfail : ¬v.extractLsb' 0 2 = (2 : BitVec 2) := by rw [ackCode_eq_iff]; change ¬v.toNat % 4 = 2; omega
    simp only [if_neg hok, if_neg hfail]

end Sys2Proof.Machine

namespace Sys2Proof.Safety

open Sys2Proof.Machine

section

variable {s : State} {u : UnitId} {v : Word} {e : Subscription} {rest : List Event}

/-! ### Steps -/

/-- Taking the event off the agenda does not touch the unit, so an update may be replaced by one that agrees on it. -/
theorem next_modifyUnit_congr {f g : UnitState → UnitState} (h : f (s.unit u) = g (s.unit u)) :
    (.next ({ s with agenda := rest }.modifyUnit u f) : Host.Outcome State Fault Refusal) =
      .next ({ s with agenda := rest }.modifyUnit u g) :=
  congrArg Host.Outcome.next (modifyUnit_congr _ u (by rwa [unit_mk]))

theorem step_deliver (hf : s.faults = []) (ha : s.agenda = .unitTurn u :: rest) (hp : (s.unit u).phase = .notify)
    (hpend : (s.unit u).pend = none) (he : (s.unit u).subs[(s.unit u).nidx]? = some e) :
    step s = .next ({ s with agenda := rest }.modifyUnit u (emitChanged e)) :=
  (step_notify hf ha hp).trans (next_modifyUnit_congr (notifyStep_deliver hpend he))

theorem step_complete (hf : s.faults = []) (ha : s.agenda = .unitTurn u :: rest) (hp : (s.unit u).phase = .notify)
    (hpend : (s.unit u).pend = none) (hn : (s.unit u).nidx = (s.unit u).subs.length) :
    step s = .next ({ s with agenda := rest }.modifyUnit u completeDecode) :=
  (step_notify hf ha hp).trans (next_modifyUnit_congr (notifyStep_complete hpend hn))

theorem step_ackOk (hf : s.faults = []) (ha : s.agenda = ackEvent u v :: rest) (hcode : v.toNat % 4 = 1)
    (hpend : (s.unit u).pend = some e) : step s = .next ({ s with agenda := rest }.modifyUnit u ackOk) :=
  (step_ack hf ha).trans (next_modifyUnit_congr (writeAck_ok hcode hpend))

theorem step_ackFail (hf : s.faults = []) (ha : s.agenda = ackEvent u v :: rest) (hcode : v.toNat % 4 = 2)
    (hpend : (s.unit u).pend = some e) : step s = .next ({ s with agenda := rest }.modifyUnit u (ackFail e)) :=
  (step_ack hf ha).trans (next_modifyUnit_congr (writeAck_fail hcode hpend))

end

/-- Settles O26: the unit's event is pending after `step_deliver`, which PENDING and the line show. -/
theorem deliverStep : Obligations.DeliverStep := by
  intro s u e rest hf ha hp hpend he
  refine ⟨_, step_deliver hf ha hp hpend he, rfl, ?_, (changedLine_iff _ _).2 ⟨u, e, ?_, rfl⟩⟩
  · rw [pendingRegister_toNat (e := e) (by rw [modifyUnit_unit]; rfl)]
    omega
  · rw [modifyUnit_unit]; rfl

/-- Settles O27: `step_complete`, with the update written out. -/
theorem completeStep : Obligations.CompleteStep :=
  fun _ _ _ hf ha hp hpend hn => step_complete hf ha hp hpend hn

/-- Settles O28: `step_ackOk`, with the update written out. -/
theorem ackOfOk : Obligations.AckOfOk :=
  fun _ _ _ _ _ hf ha hcode hpend => step_ackOk hf ha hcode hpend

/-- Settles O29: `step_ackFail`, with the update written out. -/
theorem ackOfFail : Obligations.AckOfFail :=
  fun _ _ _ _ _ hf ha hcode hpend => step_ackFail hf ha hcode hpend

/-- Settles O30: the write leaves its unit as it was. -/
theorem ackIgnored : Obligations.AckIgnored := by
  intro s u v rest hf ha h
  rw [step_ack hf ha, modifyUnit_eq_self]
  rw [unit_mk]
  exact writeAck_ignored h

end Sys2Proof.Safety
end

section
/-! Whole NOTIFY phases from nidx 0 (42_notifier R101): every event acknowledged OK, and a FAIL after some of them. -/

namespace Sys2Proof.Safety

open Sys2Proof.Machine

/-- Settles O32: `run_okRounds` from the first entry on. -/
theorem notifyRoundCompletes : Obligations.NotifyRoundCompletes := by
  intro s u rest hf hp hpend hn ha
  obtain ⟨hrun, hevents⟩ := run_okRounds _ hf hp hpend (by rw [hn, Nat.zero_add]) ha
  rw [hn, List.drop_zero] at hevents
  refine ⟨⟨_, hrun, ?_⟩, hevents⟩
  simp only [FaultFree, modifyUnit_unit, modifyUnit_agenda, modifyUnit_faults, unit_mk, true_and]
  exact ⟨rfl, rfl, rfl, rfl, rfl, hf⟩

/-- A unit `k` of whose entries, from nidx on, have been notified and have answered OK (42_notifier R96). -/
def skipEntries (k : Nat) (U : UnitState) : UnitState := { U with pend := none, nidx := U.nidx + k }

/-- The first `k` deliveries of a NOTIFY phase, all acknowledged OK, before any other `j` steps. -/
theorem run_okRounds_then {u : UnitId} {rest : List Event} (j k : Nat) {s : State} (hf : s.faults = [])
    (hp : (s.unit u).phase = .notify) (hpend : (s.unit u).pend = none)
    (hk : (s.unit u).nidx + k ≤ (s.unit u).subs.length) (ha : s.agenda = okRounds u k ++ rest) :
    Host.Core.run Sys2Proof.core (2 * k + j) s =
        Host.Core.run Sys2Proof.core j ({ s with agenda := rest }.modifyUnit u (skipEntries k)) ∧
      changedEvents u (2 * k + j) s =
        ((s.unit u).subs.drop (s.unit u).nidx).take k ++
          changedEvents u j ({ s with agenda := rest }.modifyUnit u (skipEntries k)) := by
  induction k generalizing s with
  | zero =>
    have hself : { s with agenda := rest }.modifyUnit u (skipEntries 0) = s := by
      rw [modifyUnit_eq_self (by rw [unit_mk, skipEntries, ← hpend]; rfl), ← List.nil_append rest]
      exact congrArg (fun a => { s with agenda := a }) ha.symm
    rw [hself, Nat.mul_zero, Nat.zero_add]
    exact ⟨rfl, rfl⟩
  | succ k ih =>
    have hlt : (s.unit u).nidx < (s.unit u).subs.length := by omega
    obtain ⟨hrun, hevents⟩ := run_okRound hf hp hpend (List.getElem?_eq_getElem hlt) ha (2 * k + j)
    generalize ht : State.modifyUnit _ u nextEntry = t at hrun hevents
    have hunit : t.unit u = nextEntry (s.unit u) := by rw [← ht, modifyUnit_unit, unit_mk]
    obtain ⟨ihrun, ihevents⟩ := ih (s := t) (by rw [← ht, modifyUnit_faults]; exact hf) (by rw [hunit]; exact hp)
      (by rw [hunit]; rfl) (by rw [hunit]; simp only [nextEntry]; omega) (by rw [← ht, modifyUnit_agenda]; rfl)
    have hend : { t with agenda := rest }.modifyUnit u (skipEntries k) =
        { s with agenda := rest }.modifyUnit u (skipEntries (k + 1)) := by
      rw [← ht, modifyUnit_agenda_comm, modifyUnit_modifyUnit]
      refine modifyUnit_congr _ u ?_
      simp only [Function.comp_apply, skipEntries, nextEntry, Nat.add_assoc, Nat.add_comm 1 k]
    rw [hend] at ihrun ihevents
    have hsteps : 2 * (k + 1) + j = 2 * k + j + 2 := by omega
    constructor
    · rw [hsteps, hrun, ihrun]
    · rw [hsteps, hevents, ihevents, hunit, List.drop_eq_getElem_cons hlt]
      rfl

/-- A delivery and its FAIL: two steps, one event, and the DECODE is over (42_notifier R94, R97). -/
theorem run_failRound {s : State} {u : UnitId} {e : Subscription} {v : Word} {rest : List Event} (hf : s.faults = [])
    (hp : (s.unit u).phase = .notify) (hpend : (s.unit u).pend = none) (he : (s.unit u).subs[(s.unit u).nidx]? = some e)
    (hcode : v.toNat % 4 = 2) (ha : s.agenda = .unitTurn u :: ackEvent u v :: rest) :
    Host.Core.run Sys2Proof.core 2 s = .next ({ s with agenda := rest }.modifyUnit u (ackFail e)) ∧
      changedEvents u 2 s = [e] := by
  have hdeliver := step_deliver hf ha hp hpend he
  generalize hd : State.modifyUnit _ _ _ = d at hdeliver
  have hdpend : (d.unit u).pend = some e := by rw [← hd, modifyUnit_unit]; rfl
  have hfail := step_ackFail (s := d) (rest := rest) (by rw [← hd, modifyUnit_faults]; exact hf)
    (by rw [← hd, modifyUnit_agenda]) hcode hdpend
  constructor
  · rw [run_succ 1 hdeliver, run_succ 0 hfail, ← hd, modifyUnit_agenda_comm, modifyUnit_modifyUnit]
    rfl
  · rw [changedEvents_succ u 1 hdeliver, changedEvents_succ u 0 hfail, emitted_of_no_pend hpend, emitted_of_pend hdpend,
      hdpend]
    rfl

/-- Settles O33: `k` acknowledged entries are skipped, and entry `k` fails. -/
theorem notifyRoundFails : Obligations.NotifyRoundFails := by
  intro s u k e v rest hf hp hpend hn he hcode ha
  have hk : (s.unit u).nidx + k ≤ (s.unit u).subs.length := by
    rw [hn, Nat.zero_add]
    exact (List.getElem?_eq_some_iff.1 he).1.le
  obtain ⟨hrun, hevents⟩ := run_okRounds_then 2 k hf hp hpend hk ha
  generalize ht : State.modifyUnit _ u (skipEntries k) = t at hrun hevents
  have hunit : t.unit u = skipEntries k (s.unit u) := by rw [← ht, modifyUnit_unit, unit_mk]
  have hfree : t.faults = [] := by rw [← ht, modifyUnit_faults]; exact hf
  obtain ⟨hfailrun, hfailevents⟩ := run_failRound (e := e) hfree (by rw [hunit]; exact hp) (by rw [hunit]; rfl)
    (by rw [hunit, skipEntries, hn, Nat.zero_add]; exact he) hcode (by rw [← ht, modifyUnit_agenda])
  refine ⟨⟨_, hrun.trans hfailrun, ?_⟩, ?_⟩
  · simp only [FaultFree, modifyUnit_unit, modifyUnit_agenda, modifyUnit_faults, unit_mk, hunit, true_and]
    exact ⟨rfl, rfl, rfl, rfl, rfl, rfl, hfree⟩
  · rw [hevents, hfailevents, hn, List.drop_zero, List.take_add_one, he]
    rfl

end Sys2Proof.Safety
end

section
/-! Turns of a unit that has no enabled step (60_exceptions R115, 70_reset_and_hazards R124). -/

namespace Sys2Proof.Safety

open Sys2Proof.Machine

/-- Settles O59: taking the turn off the agenda leaves the unit as it was, so it is still without an enabled step and
`unitStep_disabled` applies. -/
theorem turnWithoutEnabledStep : Obligations.TurnWithoutEnabledStep := by
  intro s u rest hf ha h
  have hdisabled : unitStep u { s with agenda := rest } = { s with agenda := rest } :=
    unitStep_disabled (by rwa [unit_mk])
  rw [step_unitTurn hf ha, hdisabled]

end Sys2Proof.Safety
end

section
/-! RST (70_reset_and_hazards R117) and a command word at a busy and at an idle unit (R120, 30_encoding R60). -/

namespace Sys2Proof.Machine

/-! ### Reset -/

theorem resetBlock_unit (s : State) (u : UnitId) : (resetBlock s).unit u = UnitState.reset := by cases u <;> rfl

/-- Every register reads 0 after reset (10_state R18 to R27, R38). -/
theorem readRegister_reset (r : Register) : readRegister UnitState.reset r = 0 := by cases r <;> decide

/-- A raster that is not allocated reads 0 (20_memory R45). -/
theorem windowByte_unallocated {s : State} {u : UnitId} (h : (s.unit u).allocW = 0) (off : Nat) : windowByte s u off = 0 :=
  if_neg fun hlive => hlive.1 h

/-- No unit pends an event after reset, so no line is asserted (42_notifier R100). -/
theorem changedLine_reset (s : State) (k : Nat) : changedLine (resetBlock s) k = false := rfl

/-- Settles O48: the step is `resetBlock`, whatever the fault set holds, and both its units are `UnitState.reset`. -/
theorem resetEvent : Obligations.ResetEvent := by
  intro s rest ha
  refine ⟨_, step_reset ha, rfl, rfl, rfl, rfl, rfl, changedLine_reset _, fun u => ?_⟩
  have hunit := resetBlock_unit { s with agenda := rest } u
  have halloc : (State.unit (resetBlock { s with agenda := rest }) u).allocW = 0 := by rw [hunit]; rfl
  rw [hunit]
  exact ⟨rfl, rfl, rfl, rfl, rfl, rfl, rfl, rfl, readRegister_reset, windowByte_unallocated halloc⟩

/-! ### Commands -/

/-- No command's meaning stops. -/
theorem exec_next (i : Instr) (s : State) : ∃ t, exec i s = .next t := by
  cases i <;> exact ⟨_, rfl⟩

theorem stepCommand_next (c : Word) (s : State) : ∃ t, stepCommand c s = .next t := by
  cases hd : decode c with
  | instr i =>
    rw [stepCommand_instr hd]
    exact exec_next i s
  | reject why => exact ⟨illegalCommand c s, by simp only [stepCommand, hd]⟩

/-- Any word to a busy unit is the fault ConcurrentCommand with that word (30_encoding R60). -/
theorem stepCommand_busy {s : State} (c : Word) (h : (s.unit s.port).phase ≠ .idle) :
    stepCommand c s = .next (recordFault (.concurrentCommand s.port c) s) := by
  cases hd : decode c with
  | instr i =>
    obtain ⟨rfl, -⟩ := encodeOfDecode c i hd
    rw [stepCommand_instr hd, exec_busy i h]
  | reject why => simp only [stepCommand, hd, illegalCommand, issue_busy _ _ h]

/-- Settles O8: a busy unit answers with `stepCommand_busy`; an idle one answers, and its answer leaves the fault set. -/
theorem concurrentCommandFault : Obligations.ConcurrentCommandFault := by
  intro s u c rest hf ha
  rw [step_command hf ha]
  constructor
  · intro hbusy
    rw [stepCommand_busy c (by rwa [unit_mk]), recordFault_eq, hf]
    rfl
  · intro hidle
    obtain ⟨t, ht⟩ := stepCommand_next c { s with agenda := rest, port := u }
    obtain ⟨-, hfaults⟩ := Safety.stepCommand_idle (by rwa [unit_mk]) ht
    exact ⟨t, ht, hfaults.trans hf⟩

end Sys2Proof.Machine
end

section
/-! A host's MemWrite (70_reset_and_hazards R122): its bytes, the faults it records under the invariant, and its two outcomes
inside the source space. -/

namespace Sys2Proof.Machine

variable {a : Word} {bytes : List Byte} {s : State}

theorem memWrite_stored (hs : sourceFaults s a.toNat bytes.length = []) (hk : a.toNat + bytes.length ≤ 2 ^ 32) :
    memWrite a bytes s = .next { s with srcMem := Memory.writeBytes s.srcMem a.toNat bytes } := by
  obtain ⟨t, ht⟩ := (memWrite_next_iff a bytes s).2 (.inr hk)
  obtain ⟨-, -, rfl⟩ | ⟨hne, -⟩ := memWrite_cases ht
  · exact ht
  · exact absurd hs hne

theorem memWrite_modified (hs : sourceFaults s a.toNat bytes.length ≠ []) :
    memWrite a bytes s = .next (recordFaults (sourceFaults s a.toNat bytes.length) s) := by
  obtain ⟨t, ht⟩ := (memWrite_next_iff a bytes s).2 (.inl hs)
  obtain ⟨-, hnil, -⟩ | ⟨-, rfl⟩ := memWrite_cases ht
  · exact absurd hnil hs
  · exact ht

end Sys2Proof.Machine

namespace Sys2Proof.Safety

open Sys2Proof.Machine

/-- The step of a MemWrite is `memWrite` of its bytes, low byte first (30_encoding R65). -/
theorem step_memWriteOf {s : State} {e : Event} {a : Word} {bytes : List Nat} {rest : List Event} (hf : s.faults = [])
    (hw : MemWriteOf e a bytes) (ha : s.agenda = e :: rest) :
    ∃ bs : List Byte, bytes = bs.map BitVec.toNat ∧ step s = memWrite a bs { s with agenda := rest } := by
  obtain ⟨v, rfl, rfl⟩ | ⟨v, rfl, rfl⟩ := hw
  · exact ⟨_, rfl, step_memWrite8 hf ha⟩
  · refine ⟨_, ?_, step_memWrite16 hf ha⟩
    have hlt : v.toNat < 65536 := v.isLt
    have hhigh : v.toNat / 256 % 256 = v.toNat / 256 := Nat.mod_eq_of_lt (by omega)
    simp [Nat.shiftRight_eq_div_pow, hhigh]

/-- The latched range of a busy unit is inside the source space (40_color_decode R68, 41_depth_decode R80). -/
theorem InBusyRange.lt {s : State} {u : UnitId} {b : Nat} (hinv : Inv s) (h : InBusyRange s u b) : b < 2 ^ 32 := by
  obtain ⟨hbusy, -, hend⟩ := h
  exact hend.trans_le ((hinv.unit u).busy hbusy).sourceFits

/-- Under the invariant the faults of a MemWrite are one for each unit and byte in a busy unit's range, and no others. -/
theorem mem_sourceFaults_iff_inBusyRange {s : State} (hinv : Inv s) (rest : List Event) (a n : Nat) (f : ModelFault) :
    f ∈ sourceFaults { s with agenda := rest } a n ↔
      ∃ u k, k < n ∧ InBusyRange s u (a + k) ∧ f = .sourceModified u (BitVec.ofNat 32 (a + k)) := by
  simp only [mem_sourceFaults, unit_mk]
  constructor
  · rintro ⟨u, k, hk, -, hbusy, hcovers, rfl⟩
    exact ⟨u, k, hk, (inBusyRange_iff s u _).2 ⟨hbusy, hcovers⟩, rfl⟩
  · rintro ⟨u, k, hk, hin, rfl⟩
    obtain ⟨hbusy, hcovers⟩ := (inBusyRange_iff s u _).1 hin
    exact ⟨u, k, hk, hin.lt hinv, hbusy, hcovers, rfl⟩

/-- Settles O42: the fault list of the write is empty exactly where no byte is in a busy unit's range, and then its bytes are
stored; else the list is what is recorded. -/
theorem hostMemWrite : Obligations.HostMemWrite := by
  intro s e a bytes rest hinv hf hw ha
  obtain ⟨bs, rfl, hstep⟩ := step_memWriteOf hf hw ha
  have hfaults := mem_sourceFaults_iff_inBusyRange hinv rest a.toNat bs.length
  rw [hstep, List.length_map]
  refine ⟨fun hout hfits => ?_, fun u k hk hin => ?_⟩
  · have hnil : sourceFaults { s with agenda := rest } a.toNat bs.length = [] := by
      refine List.eq_nil_iff_forall_not_mem.2 fun f hmem => ?_
      obtain ⟨u, k, hk, hin, -⟩ := (hfaults f).1 hmem
      exact hout u k hk hin
    refine ⟨_, memWrite_stored hnil hfits, rfl, fun k hk => ?_, fun b hb => read_writeBytes_other _ bs hb⟩
    rw [read_writeBytes_at _ bs hinv.srcMem hfits hk, List.getElem?_map, List.getElem?_eq_getElem hk, Option.map_some]
  · have hmem := (hfaults _).2 ⟨u, k, hk, hin, rfl⟩
    obtain ⟨l, heq, -, hnew, hall, -⟩ :=
      recordFaults_eq (sourceFaults { s with agenda := rest } a.toNat bs.length) { s with agenda := rest }
    refine ⟨_, memWrite_modified (List.ne_nil_of_mem hmem), ?_⟩
    rw [heq]
    refine ⟨rfl, hnew _ hmem, fun f hfl => ?_⟩
    obtain hold | hof := hall f hfl
    · simp only [hf, List.not_mem_nil] at hold
    · exact (hfaults f).1 hof

end Sys2Proof.Safety
end

section
/-! Progress while no event is outstanding (70_reset_and_hazards R129): a unit has at most two steps to take before it is IDLE or
waits for an ACK, and each free step takes one of them. -/

namespace Sys2Proof.Machine

/-- How many steps of its own a unit has left before it is IDLE or waits for an ACK (10_state R16). -/
def UnitState.turnsLeft (U : UnitState) : Nat :=
  match U.phase with
  | .idle => 0
  | .write => 2
  | .notify => if U.pend = none then 1 else 0

/-- The steps both units have left. -/
def State.turnsLeft (s : State) : Nat := (s.unit .cu).turnsLeft + (s.unit .du).turnsLeft

theorem turnsLeft_le (U : UnitState) : U.turnsLeft ≤ 2 := by
  unfold UnitState.turnsLeft
  cases U.phase with
  | idle => exact Nat.zero_le 2
  | write => exact le_rfl
  | notify => dsimp only; split <;> omega

theorem turnsLeft_eq_zero {U : UnitState} (h : U.turnsLeft = 0) :
    U.phase = .idle ∨ (U.phase = .notify ∧ ∃ e, U.pend = some e) := by
  unfold UnitState.turnsLeft at h
  split at h
  · exact .inl ‹_›
  · cases h
  · split at h
    · cases h
    · exact .inr ⟨‹_›, Option.ne_none_iff_exists'.1 ‹_›⟩

/-- A free step is a turn of an enabled unit, or of some unit where none is enabled. -/
theorem freeRun_cases (s : State) :
    ∃ u d, freeRun s = unitStep u { s with drawCount := d } ∧
      (stepEnabled (s.unit u) = true ∨ (stepEnabled s.cu = false ∧ stepEnabled s.du = false)) := by
  unfold freeRun
  cases hcu : stepEnabled s.cu <;> cases hdu : stepEnabled s.du
  · exact ⟨.du, s.drawCount, rfl, .inr ⟨rfl, rfl⟩⟩
  · exact ⟨.du, s.drawCount, rfl, .inl hdu⟩
  · exact ⟨.cu, s.drawCount, rfl, .inl hcu⟩
  · refine ⟨_, s.drawCount + 1, rfl, .inl ?_⟩
    split <;> assumption

@[simp] theorem freeRun_faults (s : State) : (freeRun s).faults = s.faults := by
  obtain ⟨u, d, hrun, -⟩ := freeRun_cases s
  obtain ⟨f, hturn⟩ := unitStep_eq_modifyUnit u { s with drawCount := d }
  rw [hrun, hturn, modifyUnit_faults]

@[simp] theorem freeRun_agenda (s : State) : (freeRun s).agenda = s.agenda := by
  obtain ⟨u, d, hrun, -⟩ := freeRun_cases s
  obtain ⟨f, hturn⟩ := unitStep_eq_modifyUnit u { s with drawCount := d }
  rw [hrun, hturn, modifyUnit_agenda]

end Sys2Proof.Machine

namespace Sys2Proof.Safety

open Sys2Proof.Machine

section

variable {P : Config.Params} {u : UnitId} {U : UnitState}

/-- In NOTIFY nidx is a position of the table or its end, so a unit with a step left can take it (42_notifier R94, R98). -/
theorem UnitInv.stepEnabled_eq (h : UnitInv P u U) : stepEnabled U = decide (U.turnsLeft ≠ 0) := by
  unfold stepEnabled UnitState.turnsLeft
  cases hp : U.phase with
  | idle => simp
  | write => simp
  | notify => cases U.pend <;> simp [h.nidxInTable hp]

/-- The write step leaves the deliver or complete step to take, and after one of these none is left. -/
theorem UnitInv.turnsLeft_turnUnit (h : UnitInv P u U) (new : List Byte) :
    (turnUnit new U).turnsLeft = U.turnsLeft - 1 := by
  cases hp : U.phase with
  | idle => simp [turnUnit, UnitState.turnsLeft, hp]
  | write => simp [turnUnit, UnitState.turnsLeft, hp, storeFrame, h.pend_none]
  | notify =>
    have hturn : turnUnit new U = notifyStep U := by simp only [turnUnit, hp]
    rw [hturn]
    cases hpend : U.pend with
    | some e => simp [notifyStep, UnitState.turnsLeft, hp, hpend]
    | none =>
      obtain hlt | hend := (h.nidxInTable hp).lt_or_eq
      · rw [notifyStep_deliver hpend (List.getElem?_eq_getElem hlt)]
        simp [UnitState.turnsLeft, emitChanged, hp, hpend]
      · rw [notifyStep_complete hpend hend]
        simp [UnitState.turnsLeft, completeDecode, hp, hpend]

end

/-- A turn takes one step of its unit and none of the other. -/
theorem turnsLeft_unitStep {s : State} (hinv : Inv s) (u v : UnitId) (d : Nat) :
    ((unitStep u { s with drawCount := d }).unit v).turnsLeft =
      if u = v then (s.unit v).turnsLeft - 1 else (s.unit v).turnsLeft := by
  rw [unitStep_turnUnit, unit_mk]
  split
  · exact (hinv.unit v).turnsLeft_turnUnit _
  · rfl

/-- A free step takes one of the steps left, if any is left. -/
theorem turnsLeft_freeRun {s : State} (hinv : Inv s) : (freeRun s).turnsLeft = s.turnsLeft - 1 := by
  obtain ⟨u, d, hrun, henabled⟩ := freeRun_cases s
  simp only [(hinv.unit u).stepEnabled_eq, hinv.cu.stepEnabled_eq, hinv.du.stepEnabled_eq, decide_eq_true_eq,
    decide_eq_false_iff_not, not_not] at henabled
  rw [hrun, State.turnsLeft, State.turnsLeft, turnsLeft_unitStep hinv, turnsLeft_unitStep hinv]
  cases u
  all_goals
    simp only [unit_cu, unit_du, if_true, if_false, reduceCtorEq] at henabled ⊢
    omega

/-- `k` free steps take `k` of the steps left, as far as there are any. -/
theorem run_idle (k : Nat) {s : State} (hinv : Inv s) (hf : s.faults = []) (ha : s.agenda = []) :
    ∃ t : State, Host.Core.run Sys2Proof.core k s = .next t ∧ t.turnsLeft = s.turnsLeft - k := by
  induction k generalizing s with
  | zero => exact ⟨s, rfl, rfl⟩
  | succ k ih =>
    have hstep := step_idle hf ha
    obtain ⟨t, hrun, hleft⟩ := ih (stepKeepsInvariant s _ hinv hstep) (by rw [freeRun_faults, hf])
      (by rw [freeRun_agenda, ha])
    refine ⟨t, (run_succ k hstep).trans hrun, ?_⟩
    rw [hleft, turnsLeft_freeRun hinv]
    omega

/-- Settles O56: the units have at most two steps left each, and four free steps take them. -/
theorem unitsRunOn : Obligations.UnitsRunOn := by
  intro s hinv hf ha
  obtain ⟨t, hrun, hleft⟩ := run_idle 4 hinv hf ha
  have hcu := turnsLeft_le (s.unit .cu)
  have hdu := turnsLeft_le (s.unit .du)
  have hnone : t.turnsLeft = 0 := by rw [hleft, State.turnsLeft]; omega
  obtain ⟨htcu, htdu⟩ := Nat.add_eq_zero_iff.1 hnone
  refine ⟨t, hrun, fun u => turnsLeft_eq_zero ?_⟩
  cases u with
  | cu => exact htcu
  | du => exact htdu

end Sys2Proof.Safety
end

section
/-! A run that has faulted (60_exceptions R104). -/

namespace Sys2Proof.Machine

theorem step_faulted {s : State} {f : ModelFault} {fs : List ModelFault} (hf : s.faults = f :: fs)
    (ha : s.agenda.head? ≠ some .reset) : step s = .refused (.faultedRun f) := by
  rw [step, nextMove_faulted hf ha]

/-- Settles O45: the next move of a faulted run is the refusal, and the step answers it. -/
theorem faultedRunRefused : Obligations.FaultedRunRefused :=
  fun _ _ _ hf ha => step_faulted hf ha

end Sys2Proof.Machine
end

section
/-! SUBSCRIBE, whole (42_notifier R91): its word, and the chain of its checks. -/

namespace Sys2Proof.Machine

/-- SUBSCRIBE's word is its opcode with SINK in the low byte (30_encoding R57). -/
theorem encode_subscribe (sink : Byte) : encode (.subscribe sink) = 0x10000000 + sink.setWidth 32 := by
  have hsink := sink.isLt
  apply BitVec.eq_of_toNat_eq
  rw [encode, packFields_toNat, BitVec.toNat_add, BitVec.toNat_setWidth]
  simp only [BitVec.ofNat_eq_ofNat, BitVec.toNat_ofNat]
  omega

theorem subscribeUnit_eq_ite (P : Config.Params) (sink : Byte) (U : UnitState) :
    subscribeUnit P sink U =
      if sink.toNat ≥ P.sinkCount then { U with result := 0, lastStatus := .invalidSink }
      else if U.subs.length = P.subMax then { U with result := 0, lastStatus := .subscriberTableFull }
      else if U.nextHandle = 65536 then { U with result := 0, lastStatus := .handleExhausted }
      else
        { U with
          nextHandle := U.nextHandle + 1
          subs := U.subs ++ [{ handle := BitVec.ofNat 16 U.nextHandle, sink := sink }]
          result := BitVec.ofNat 16 U.nextHandle
          lastStatus := .ok } := by
  unfold subscribeUnit subscribeReject
  split_ifs <;> rfl

/-- Settles O22: a busy unit records the fault with SUBSCRIBE's word; on an idle one the command is `subscribeUnit`, whose
checks are the statement's, in its order. -/
theorem subscribeResult : Obligations.SubscribeResult := by
  intro s sink
  constructor
  · intro hbusy
    rw [exec_busy _ hbusy, encode_subscribe]
  · intro hidle
    rw [exec_subscribe_idle sink hidle]
    exact congrArg Host.Outcome.next (Safety.modifyUnit_congr s _ (subscribeUnit_eq_ite s.params sink _))

end Sys2Proof.Machine
end

section
/-! The dispatch of a command word (30_encoding R60): what the decoder's answers say about the masks, the chain of R60 on an idle
unit, and which commands take a unit out of IDLE. -/

namespace Sys2Proof.Machine

variable {c : Word}

/-! ### The masks of a decoded word -/

theorem decode_eq_decodeColor_iff {fmt : PixelFormat} :
    decode c = .instr (.decodeColor fmt) ↔ c &&& 0xFFFFFF00 = 0x01000000 ∧ formatOfTag (c.extractLsb' 0 8) = fmt := by
  have hmeans := (decodeAgreesWithMasks c).1
  constructor
  · intro hd
    obtain ⟨henc, -⟩ := encodeOfDecode c _ hd
    have hmask : c &&& 0xFFFFFF00 = 0x01000000 := (and_mask24_iff c 0x01).2 (by simp [← henc, encode])
    exact ⟨hmask, by simpa [hd, eq_comm] using hmeans hmask⟩
  · rintro ⟨hmask, rfl⟩
    exact hmeans hmask

theorem decode_eq_decodeDepth_iff : decode c = .instr .decodeDepth ↔ c = 0x02000000 := by
  obtain ⟨-, hmeans, -⟩ := decodeAgreesWithMasks c
  exact ⟨fun hd => (encodeOfDecode c _ hd).1.symm, hmeans⟩

theorem mask_of_decode_subscribe {sink : Byte} (hd : decode c = .instr (.subscribe sink)) :
    c &&& 0xFFFFFF00 = 0x10000000 := by
  obtain ⟨rfl, -⟩ := encodeOfDecode c _ hd
  exact (and_mask24_iff _ 0x10).2 (by simp [encode])

theorem mask_of_decode_unsubscribe {handle : Half} (hd : decode c = .instr (.unsubscribe handle)) :
    c &&& 0xFFFF0000 = 0x11000000 := by
  obtain ⟨rfl, -⟩ := encodeOfDecode c _ hd
  exact (and_mask16_iff _ 0x11).2 (by simp [encode])

/-! ### The chain -/

/-- R60's chain after its first test. A word that passes none of the tests is no command, or is a DECODE at the wrong unit. -/
theorem stepCommand_idle_eq_ite (c : Word) {s : State} (hi : (s.unit s.port).phase = .idle) :
    stepCommand c s = .next
      (if c &&& 0xFFFFFF00 = 0x01000000 ∧ s.port = .cu then colorAcceptStep (formatOfTag (c.extractLsb' 0 8)) s
      else if c = 0x02000000 ∧ s.port = .du then depthAcceptStep s
      else if c &&& 0xFFFFFF00 = 0x10000000 then s.modifyUnit s.port (subscribeUnit s.params (c.extractLsb' 0 8))
      else if c &&& 0xFFFF0000 = 0x11000000 then s.modifyUnit s.port (unsubscribeUnit (c.extractLsb' 0 16))
      else raiseStatus .illegalCommand s) := by
  obtain ⟨-, -, hsubscribe, hunsubscribe, -⟩ := decodeAgreesWithMasks c
  split_ifs with hcolor hdepth hsub hunsub
  · obtain ⟨hmask, hp⟩ := hcolor
    rw [stepCommand_instr (decode_eq_decodeColor_iff.2 ⟨hmask, rfl⟩), exec_decodeColor_idle _ hi, if_pos hp]
  · obtain ⟨hword, hp⟩ := hdepth
    rw [stepCommand_instr (decode_eq_decodeDepth_iff.2 hword), exec_decodeDepth_idle hi, if_pos hp]
  · rw [stepCommand_instr (hsubscribe hsub), exec_subscribe_idle _ hi]
  · rw [stepCommand_instr (hunsubscribe hunsub), exec_unsubscribe_idle _ hi]
  · refine stepCommand_illegal hi fun i hd => ?_
    cases i with
    | decodeColor fmt =>
      have hwrong : s.port ≠ .cu := fun hp => hcolor ⟨(decode_eq_decodeColor_iff.1 hd).1, hp⟩
      rw [exec_decodeColor_idle fmt hi, if_neg hwrong]
    | decodeDepth =>
      have hwrong : s.port ≠ .du := fun hp => hdepth ⟨decode_eq_decodeDepth_iff.1 hd, hp⟩
      rw [exec_decodeDepth_idle hi, if_neg hwrong]
    | subscribe sink => exact absurd (mask_of_decode_subscribe hd) hsub
    | unsubscribe handle => exact absurd (mask_of_decode_unsubscribe hd) hunsub

/-! ### Leaving IDLE -/

section

variable {P : Config.Params} {u : UnitId} {U : UnitState}

theorem acceptUnit_leaves_idle {reject : Option Status} {op : DecodeOp} {fmt : PixelFormat} (hi : U.phase = .idle)
    (h : (acceptUnit reject op fmt U).phase ≠ .idle) : reject = none := by
  cases reject with
  | none => rfl
  | some code => exact absurd hi h

/-- Of the commands only a DECODE of the unit's own whose checks all pass makes an idle unit busy (10_state R16). -/
theorem commandUnit_leaves_idle {i : Instr} (hi : U.phase = .idle) (h : (commandUnit P u i U).phase ≠ .idle) :
    (∃ fmt, u = .cu ∧ i = .decodeColor fmt ∧ colorReject P U fmt = none) ∨
      (u = .du ∧ i = .decodeDepth ∧ frameReject P U false depthBpp = none) := by
  cases i with
  | decodeColor fmt =>
    rw [commandUnit] at h
    split at h
    next hu => exact .inl ⟨fmt, hu, rfl, acceptUnit_leaves_idle hi h⟩
    next => exact absurd hi h
  | decodeDepth =>
    rw [commandUnit] at h
    split at h
    next hu => exact .inr ⟨hu, rfl, acceptUnit_leaves_idle hi h⟩
    next => exact absurd hi h
  | subscribe sink =>
    obtain ⟨subs, next, result, code, he⟩ := subscribeUnit_frame P sink U
    rw [commandUnit, he] at h
    exact absurd hi h
  | unsubscribe handle =>
    obtain ⟨subs, code, he⟩ := unsubscribeUnit_frame handle U
    rw [commandUnit, he] at h
    exact absurd hi h

theorem wordUnit_leaves_idle (hi : U.phase = .idle) (h : (wordUnit P u c U).phase ≠ .idle) :
    (u = .cu ∧ c &&& 0xFFFFFF00 = 0x01000000 ∧ colorReject P U (formatOfTag (c.extractLsb' 0 8)) = none) ∨
      (u = .du ∧ c = 0x02000000 ∧ frameReject P U false depthBpp = none) := by
  rw [wordUnit, if_pos hi] at h
  cases hd : decode c with
  | reject why => rw [hd] at h; exact absurd hi h
  | instr i =>
    rw [hd] at h
    obtain ⟨fmt, hu, rfl, hpass⟩ | ⟨hu, rfl, hpass⟩ := commandUnit_leaves_idle hi h
    · obtain ⟨hmask, rfl⟩ := decode_eq_decodeColor_iff.1 hd
      exact .inl ⟨hu, hmask, hpass⟩
    · exact .inr ⟨hu, decode_eq_decodeDepth_iff.1 hd, hpass⟩

end

/-- Settles O6: a busy unit records the fault, an idle one answers R60's chain; what the word makes of the unit says when it
leaves IDLE. -/
theorem cmdWriteDispatch : Obligations.CmdWriteDispatch := by
  intro s u c rest hf ha
  by_cases hi : (s.unit u).phase = .idle
  · have hstep := (step_command hf ha).trans (stepCommand_idle_eq_ite c (by rwa [unit_mk]))
    refine ⟨_, hstep, (if_neg (not_not.2 hi)).symm, fun _ hleaves => ?_⟩
    rw [step_eventUnit ha hstep, eventUnit_command, if_pos rfl] at hleaves
    obtain ⟨rfl, hword⟩ | ⟨rfl, hword⟩ := wordUnit_leaves_idle hi hleaves
    · exact .inl ⟨rfl, hword⟩
    · exact .inr ⟨rfl, hword⟩
  · have hstep := (step_command hf ha).trans (stepCommand_busy c (by rwa [unit_mk]))
    exact ⟨_, hstep, (if_pos hi).symm, fun hidle => absurd hidle hi⟩

end Sys2Proof.Machine
end

section
/-! Misuse of BUS (20_memory R43, R44): which accesses are misused, what their step records, and that no other BUS access records
BusMisuse. -/

namespace Sys2Proof.Machine

variable {s : State} {a : BusAddr} {n : Width} {rest : List Event}

/-- Below 0x200 there is nothing but the two register windows (20_memory R42). -/
theorem placeAt_register_of_lt (h : a.toNat < 0x200) : ∃ u r, placeAt a = .register u r := by
  unfold placeAt
  by_cases hcu : a.toNat < 0x100
  · exact ⟨.cu, _, if_pos hcu⟩
  · rw [if_neg hcu, if_pos h]
    exact ⟨.du, _, rfl⟩

theorem misused_iff : misused a n = true ↔ a.toNat % n.bytes ≠ 0 ∨ (n ≠ .word ∧ a.toNat < 0x200) := by
  by_cases hlow : a.toNat < 0x200
  · obtain ⟨u, r, hp⟩ := placeAt_register_of_lt hlow
    simp [misused, hp, hlow]
  · by_cases hal : a.toNat % n.bytes = 0
    · simp [misused_above_windows hal (not_lt.1 hlow), hal, hlow]
    · simp [misused, hal]

theorem step_misused {e : Event} (hf : s.faults = []) (hm : misused a n = true)
    (he : e = .busRead a n ∨ ∃ v, e = .busWrite a n v) (ha : s.agenda = e :: rest) :
    step s = .next { s with agenda := rest, faults := [.busMisuse a n] } := by
  have hrecord : recordFault (.busMisuse a n) { s with agenda := rest } =
      { s with agenda := rest, faults := [.busMisuse a n] } := by
    rw [recordFault_eq, hf]; rfl
  obtain rfl | ⟨v, rfl⟩ := he
  · rw [step_busRead hf ha, busRead, if_pos hm, hrecord]
  · have hw : busWrite a n v { s with agenda := rest } = _ := if_pos hm
    rw [← hrecord]
    simp only [step, nextMove, hf, ha, perform]
    rw [← hf, hw]

/-- A write to a register other than CMD is that register's write (10_state R18 to R27). -/
theorem step_placedWrite {u : UnitId} {r : Register} {v : Word} (hf : s.faults = []) (hm : misused a n = false)
    (hp : placeAt a = .register u r) (hr : r ≠ .cmd) (ha : s.agenda = .busWrite a n v :: rest) :
    step s = .next ({ s with agenda := rest }.modifyUnit u (writeRegister r v)) := by
  have hw : ∀ s0, busWrite a n v s0 = .answer (.next (s0.modifyUnit u (writeRegister r v))) := by
    intro s0
    simp only [busWrite, hm, hp]
    cases r <;> simp at hr ⊢
  simp only [step, nextMove, hf, ha, perform, hw]

/-- A command records no BusMisuse: at most ConcurrentCommand (70_reset_and_hazards R120). -/
theorem step_command_records_no_misuse {u : UnitId} {c : Word} (hf : s.faults = []) (ha : s.agenda = commandEvent u c :: rest) :
    ∃ t, step s = .next t ∧ .busMisuse a n ∉ t.faults := by
  obtain ⟨hbusy, hidle⟩ := concurrentCommandFault s u c rest hf ha
  by_cases hi : (s.unit u).phase = .idle
  · obtain ⟨t, hstep, hfaults⟩ := hidle hi
    exact ⟨t, hstep, by simp [hfaults]⟩
  · exact ⟨_, hbusy hi, by simp⟩

/-- A write that is not misused answers: as a command, as a register's write, or ignored. -/
theorem step_write_records_no_misuse {v : Word} (hf : s.faults = []) (hm : misused a n = false)
    (ha : s.agenda = .busWrite a n v :: rest) : ∃ t, step s = .next t ∧ .busMisuse a n ∉ t.faults := by
  by_cases hplace : ∃ u r, placeAt a = .register u r
  · obtain ⟨u, r, hp⟩ := hplace
    by_cases hr : r = .cmd
    · subst hr
      obtain rfl := (not_misused hm).2 u .cmd hp
      obtain rfl := eq_cmdAddress hp hm
      exact step_command_records_no_misuse hf ha
    · exact ⟨_, step_placedWrite hf hm hp hr ha, by simp [hf]⟩
  · exact ⟨_, step_ignoredWrite hf hm (fun u r hp => hplace ⟨u, r, hp⟩) ha, by simp [hf]⟩

/-- A BUS access that is not misused answers without that fault. -/
theorem step_access_records_no_misuse {e : Event} (hf : s.faults = []) (hm : misused a n = false)
    (he : e = .busRead a n ∨ ∃ v, e = .busWrite a n v) (ha : s.agenda = e :: rest) :
    ∃ t, step s = .next t ∧ .busMisuse a n ∉ t.faults := by
  obtain rfl | ⟨v, rfl⟩ := he
  · exact ⟨_, step_read hf hm ha, by simp [hf]⟩
  · exact step_write_records_no_misuse hf hm ha

/-- Settles O35: the two clauses are the two values of `misused`. -/
theorem busMisuseRecorded : Obligations.BusMisuseRecorded := by
  intro s a n e rest hf ha he
  refine ⟨fun hbad => step_misused hf (misused_iff.2 hbad) he ha, fun hal hwide => ?_⟩
  refine step_access_records_no_misuse hf (Bool.eq_false_iff.2 fun hm => ?_) he ha
  obtain hbad | ⟨hnarrow, hlow⟩ := misused_iff.1 hm
  · exact hbad hal
  · exact hwide.elim hnarrow (not_le.2 hlow)

end Sys2Proof.Machine
end

section
/-! Where a step stops (20_memory R39, 60_exceptions R104): in a faulted run, and at a MemWrite that passes the end of the source
space. -/

namespace Sys2Proof.Safety

open Sys2Proof.Machine

variable {s : State} {rest : List Event}

/-- The step of a BUS access answers, misused or not. -/
theorem step_busAccess_next {e : Event} {a : BusAddr} {n : Width} (hf : s.faults = [])
    (he : e = .busRead a n ∨ ∃ v, e = .busWrite a n v) (ha : s.agenda = e :: rest) : ∃ t, step s = .next t := by
  cases hm : misused a n with
  | true => exact ⟨_, step_misused hf hm he ha⟩
  | false => exact (step_access_records_no_misuse hf hm he ha).imp fun _ => And.left

/-- A MemWrite of one byte always ends in the source space. -/
theorem step_memWrite8_next {a : Word} {v : Byte} (hf : s.faults = []) (ha : s.agenda = .memWrite8 a v :: rest) :
    ∃ t, step s = .next t := by
  rw [step_memWrite8 hf ha, memWrite_next_iff]
  exact .inr (Nat.succ_le_of_lt a.isLt)

/-- Of the two bytes of a MemWrite at the last source address only the first can be in a busy unit's range (log 9). -/
theorem sourceFaults_last_ne_nil_iff :
    sourceFaults { s with agenda := rest } 0xFFFFFFFF 2 ≠ [] ↔ ∃ u, InBusyRange s u 0xFFFFFFFF := by
  simp only [inBusyRange_iff, Ne, sourceFaults_eq_nil, unit_mk]
  constructor
  · intro h
    push Not at h
    obtain ⟨u, k, -, hk, hbusy, hcovers⟩ := h
    obtain rfl : k = 0 := by omega
    exact ⟨u, hbusy, by simpa using hcovers⟩
  · rintro ⟨u, hbusy, hcovers⟩ h
    have hout := h u 0 (by omega) (by omega) hbusy
    simp [hcovers] at hout

/-- A MemWrite of two bytes stops only at the last source address. -/
theorem step_memWrite16_next_iff {a : Word} {v : Half} (hf : s.faults = []) (ha : s.agenda = .memWrite16 a v :: rest) :
    (∃ t, step s = .next t) ↔ (a = 0xFFFFFFFF → ∃ u, InBusyRange s u 0xFFFFFFFF) := by
  rw [step_memWrite16 hf ha, memWrite_next_iff]
  by_cases hlast : a = 0xFFFFFFFF
  · subst hlast
    rw [← sourceFaults_last_ne_nil_iff (rest := rest)]
    simp
  · have hfits : a.toNat + 2 ≤ 2 ^ 32 := by
      have := a.isLt
      have : a.toNat ≠ 0xFFFFFFFF := fun h => hlast (BitVec.eq_of_toNat_eq h)
      omega
    exact ⟨fun _ h => absurd h hlast, fun _ => .inr hfits⟩

/-- In a run without faults a step stops only at a MemWrite that passes the end of the source space (log 9). -/
theorem step_next_iff_of_faultFree (hf : s.faults = []) :
    (∃ t, step s = .next t) ↔
      ∀ v, s.agenda.head? = some (.memWrite16 0xFFFFFFFF v) → ∃ u, InBusyRange s u 0xFFFFFFFF := by
  cases ha : s.agenda with
  | nil => exact iff_of_true ⟨_, step_idle hf ha⟩ (by simp)
  | cons e rest =>
    cases e with
    | memWrite16 a v =>
      rw [step_memWrite16_next_iff hf ha]
      simp
    | busWrite a n v => exact iff_of_true (step_busAccess_next hf (.inr ⟨v, rfl⟩) ha) (by simp)
    | busRead a n => exact iff_of_true (step_busAccess_next hf (.inl rfl) ha) (by simp)
    | memWrite8 a v => exact iff_of_true (step_memWrite8_next hf ha) (by simp)
    | unitTurn u => exact iff_of_true ⟨_, step_unitTurn hf ha⟩ (by simp)
    | reset => exact iff_of_true ⟨_, step_reset ha⟩ (by simp)

/-- A run that has faulted answers RST only (60_exceptions R104). -/
theorem step_next_iff_of_faulted (hf : s.faults ≠ []) :
    (∃ t, step s = .next t) ↔ s.agenda.head? = some .reset := by
  obtain ⟨f, fs, hcons⟩ := List.exists_cons_of_ne_nil hf
  constructor
  · rintro ⟨t, hstep⟩
    by_contra hreset
    rw [step_faulted hcons hreset] at hstep
    cases hstep
  · intro hreset
    obtain ⟨rest, ha⟩ := List.head?_eq_some_iff.1 hreset
    exact ⟨_, step_reset ha⟩

/-- Settles O46: a run without faults stops at the one MemWrite, a faulted one at every event but RST. -/
theorem stepStopsOnlyThere : Obligations.StepStopsOnlyThere := by
  intro s
  by_cases hf : s.faults = []
  · rw [step_next_iff_of_faultFree hf]
    constructor
    · exact fun h => .inl ⟨hf, h⟩
    · rintro (⟨-, h⟩ | hreset)
      · exact h
      · simp [hreset]
  · rw [step_next_iff_of_faulted hf]
    simp [hf]

end Sys2Proof.Safety
end
